-- ==== Sys2Proof/Word.lean ====
section
/-! DEFINITION. The 16-bit word of CORE (00_scope.md R6, R9) and its two bytes. -/

namespace Sys2Proof

/-- Every register, memory cell, address and instruction is one 16-bit word (R6, R9, R51). -/
abbrev Word := BitVec 16

/-- A console byte (R36): also the low or high half of a word where a service routine takes a
character from it (R51). -/
abbrev Byte := BitVec 8

end Sys2Proof
end

