-- ==== Sys2Proof/Syntax.lean ====
section
/-! DEFINITION. The instructions of CORE: one constructor for each of the 25 rows of
spec/opcode_table.json, with the fields of 30_encoding.md R81 to R84. -/

namespace Sys2Proof

/-- The eight general registers (10_state.md R20). -/
inductive Reg where
  | r0 | r1 | r2 | r3 | r4 | r5 | r6 | r7
  deriving DecidableEq, Repr

/-- An instruction. Bits that the decoder ignores (R87) are no part of it, with one exception: where
the instruction can end in a fatal condition its fault record holds the whole word `IR` (R32, R180), so
the TRAP rows and the two illegal rows carry their ignored bits as `ign` (assumption 5). -/
inductive Instr where
  /-- ADD, register mode (R110) -/
  | addReg (dr sr1 sr2 : Reg)
  /-- ADD, immediate mode (R111) -/
  | addImm (dr sr1 : Reg) (imm5 : BitVec 5)
  /-- AND, register mode (R112) -/
  | andReg (dr sr1 sr2 : Reg)
  /-- AND, immediate mode (R113) -/
  | andImm (dr sr1 : Reg) (imm5 : BitVec 5)
  /-- NOT (R114) -/
  | not (dr sr : Reg)
  /-- BR; `mask` is the field n z p of R84, n its most significant bit (R120) -/
  | br (mask : BitVec 3) (off9 : BitVec 9)
  /-- JMP (R121) -/
  | jmp (base : Reg)
  /-- JSR (R122) -/
  | jsr (off11 : BitVec 11)
  /-- JSRR (R123) -/
  | jsrr (base : Reg)
  /-- LD (R130) -/
  | ld (dr : Reg) (off9 : BitVec 9)
  /-- LDI (R131) -/
  | ldi (dr : Reg) (off9 : BitVec 9)
  /-- LDR (R132) -/
  | ldr (dr base : Reg) (off6 : BitVec 6)
  /-- LEA (R133) -/
  | lea (dr : Reg) (off9 : BitVec 9)
  /-- ST (R134) -/
  | st (sr : Reg) (off9 : BitVec 9)
  /-- STI (R135) -/
  | sti (sr : Reg) (off9 : BitVec 9)
  /-- STR (R136) -/
  | str (sr base : Reg) (off6 : BitVec 6)
  /-- TRAP `0x20`, GETC (R151) -/
  | trapGetc (ign : BitVec 4)
  /-- TRAP `0x21`, OUT (R152) -/
  | trapOut (ign : BitVec 4)
  /-- TRAP `0x22`, PUTS (R153) -/
  | trapPuts (ign : BitVec 4)
  /-- TRAP `0x23`, IN (R154) -/
  | trapIn (ign : BitVec 4)
  /-- TRAP `0x24`, PUTSP (R155) -/
  | trapPutsp (ign : BitVec 4)
  /-- TRAP `0x25`, HALT (R156) -/
  | trapHalt (ign : BitVec 4)
  /-- TRAP with any other vector (R157) -/
  | trapOther (ign : BitVec 4) (vect : BitVec 8)
  /-- the reserved opcode `1101` (R170) -/
  | res (ign : BitVec 12)
  /-- the undefined opcode `1000` (R171) -/
  | undef1000 (ign : BitVec 12)
  deriving DecidableEq, Repr

end Sys2Proof
end

