-- ==== Sys2Proof/WellFormed.lean ====
section
/-! DEFINITION. Which terms of `Instr` stand for an instruction word. Every field has exactly the width
of its encoding, so one check is left: the catch-all TRAP row does not take a defined vector. -/

namespace Sys2Proof

/-- The vectors that have a service routine: `0x20` to `0x25` (00_scope.md R6, 43_trap.md R150). -/
def definedVector (v : BitVec 8) : Bool := decide (0x20 ≤ v.toNat) && decide (v.toNat ≤ 0x25)

/-- An instruction is well formed when it is the reading of some word: TRAP with a defined vector is one
of the six rows of its own, never the catch-all row (R88, R157). -/
def Instr.wf : Instr → Bool
  | .addReg _ _ _ => true
  | .addImm _ _ _ => true
  | .andReg _ _ _ => true
  | .andImm _ _ _ => true
  | .not _ _ => true
  | .br _ _ => true
  | .jmp _ => true
  | .jsr _ => true
  | .jsrr _ => true
  | .ld _ _ => true
  | .ldi _ _ => true
  | .ldr _ _ _ => true
  | .lea _ _ => true
  | .st _ _ => true
  | .sti _ _ => true
  | .str _ _ _ => true
  | .trapGetc _ => true
  | .trapOut _ => true
  | .trapPuts _ => true
  | .trapIn _ => true
  | .trapPutsp _ => true
  | .trapHalt _ => true
  | .trapOther _ v => !definedVector v
  | .res _ => true
  | .undef1000 _ => true

end Sys2Proof
end

