-- ==== Sys2Proof/Decode.lean ====
section
/-! DEFINITION. Decoding an instruction word (30_encoding.md R85, R88) and, after it, encoding an
instruction. Decoding is total: every one of the 65536 words is exactly one row of the opcode table,
the illegal rows included, so nothing is rejected here (R88). -/

namespace Sys2Proof

/-- The register a 3-bit field names (R81). -/
def Reg.ofBits (b : BitVec 3) : Reg :=
  match b.getLsbD 2, b.getLsbD 1, b.getLsbD 0 with
  | false, false, false => .r0
  | false, false, true => .r1
  | false, true, false => .r2
  | false, true, true => .r3
  | true, false, false => .r4
  | true, false, true => .r5
  | true, true, false => .r6
  | true, true, true => .r7

/-- The 3-bit field that names a register (R81). -/
def Reg.bits : Reg → BitVec 3
  | .r0 => 0b000#3
  | .r1 => 0b001#3
  | .r2 => 0b010#3
  | .r3 => 0b011#3
  | .r4 => 0b100#3
  | .r5 => 0b101#3
  | .r6 => 0b110#3
  | .r7 => 0b111#3

/-! The fields of R81 to R84. -/

/-- `IR[15:12]`, the opcode (R80) -/
def opcodeField (w : Word) : BitVec 4 := w.extractLsb' 12 4
/-- `IR[11:9]`: `DR`, or the `SR` of a store (R81) -/
def field11to9 (w : Word) : Reg := .ofBits (w.extractLsb' 9 3)
/-- `IR[8:6]`: `SR1`, the `SR` of NOT, or `BaseR` (R81) -/
def field8to6 (w : Word) : Reg := .ofBits (w.extractLsb' 6 3)
/-- `IR[2:0]`: `SR2` (R81) -/
def field2to0 (w : Word) : Reg := .ofBits (w.extractLsb' 0 3)
/-- `IR[4:0]` (R82) -/
def fieldImm5 (w : Word) : BitVec 5 := w.extractLsb' 0 5
/-- `IR[5:0]` (R82) -/
def fieldOff6 (w : Word) : BitVec 6 := w.extractLsb' 0 6
/-- `IR[8:0]` (R82) -/
def fieldOff9 (w : Word) : BitVec 9 := w.extractLsb' 0 9
/-- `IR[10:0]` (R82) -/
def fieldOff11 (w : Word) : BitVec 11 := w.extractLsb' 0 11
/-- `IR[11:9]` of BR: n, z, p (R84) -/
def fieldMask (w : Word) : BitVec 3 := w.extractLsb' 9 3
/-- `IR[7:0]` of TRAP (R82) -/
def fieldVect (w : Word) : BitVec 8 := w.extractLsb' 0 8
/-- `IR[11:8]` of TRAP, ignored (R87) -/
def fieldIgn4 (w : Word) : BitVec 4 := w.extractLsb' 8 4
/-- `IR[11:0]` of an illegal word, ignored (R87) -/
def fieldIgn12 (w : Word) : BitVec 12 := w.extractLsb' 0 12

/-- The TRAP row a vector selects (R88, R150). -/
def decodeTrap (ign : BitVec 4) (v : BitVec 8) : Instr :=
  if v = 0x20#8 then .trapGetc ign
  else if v = 0x21#8 then .trapOut ign
  else if v = 0x22#8 then .trapPuts ign
  else if v = 0x23#8 then .trapIn ign
  else if v = 0x24#8 then .trapPutsp ign
  else if v = 0x25#8 then .trapHalt ign
  else .trapOther ign v

/-- The procedure of R88, on the four opcode bits `IR[15]`, `IR[14]`, `IR[13]`, `IR[12]`. -/
def decode (w : Word) : Instr :=
  match w.getLsbD 15, w.getLsbD 14, w.getLsbD 13, w.getLsbD 12 with
  | false, false, false, false => .br (fieldMask w) (fieldOff9 w)
  | false, false, false, true =>
    if w.getLsbD 5 then .addImm (field11to9 w) (field8to6 w) (fieldImm5 w)
    else .addReg (field11to9 w) (field8to6 w) (field2to0 w)
  | false, false, true, false => .ld (field11to9 w) (fieldOff9 w)
  | false, false, true, true => .st (field11to9 w) (fieldOff9 w)
  | false, true, false, false =>
    if w.getLsbD 11 then .jsr (fieldOff11 w) else .jsrr (field8to6 w)
  | false, true, false, true =>
    if w.getLsbD 5 then .andImm (field11to9 w) (field8to6 w) (fieldImm5 w)
    else .andReg (field11to9 w) (field8to6 w) (field2to0 w)
  | false, true, true, false => .ldr (field11to9 w) (field8to6 w) (fieldOff6 w)
  | false, true, true, true => .str (field11to9 w) (field8to6 w) (fieldOff6 w)
  | true, false, false, false => .undef1000 (fieldIgn12 w)
  | true, false, false, true => .not (field11to9 w) (field8to6 w)
  | true, false, true, false => .ldi (field11to9 w) (fieldOff9 w)
  | true, false, true, true => .sti (field11to9 w) (fieldOff9 w)
  | true, true, false, false => .jmp (field8to6 w)
  | true, true, false, true => .res (fieldIgn12 w)
  | true, true, true, false => .lea (field11to9 w) (fieldOff9 w)
  | true, true, true, true => decodeTrap (fieldIgn4 w) (fieldVect w)

/-- The word of an instruction, from the formats of R85; ignored bits that the instruction does not carry
have the conventional value of R85's last column. -/
def encode : Instr → Word
  | .addReg dr sr1 sr2 => 0b0001#4 ++ dr.bits ++ sr1.bits ++ 0b000#3 ++ sr2.bits
  | .addImm dr sr1 imm5 => 0b0001#4 ++ dr.bits ++ sr1.bits ++ 0b1#1 ++ imm5
  | .andReg dr sr1 sr2 => 0b0101#4 ++ dr.bits ++ sr1.bits ++ 0b000#3 ++ sr2.bits
  | .andImm dr sr1 imm5 => 0b0101#4 ++ dr.bits ++ sr1.bits ++ 0b1#1 ++ imm5
  | .not dr sr => 0b1001#4 ++ dr.bits ++ sr.bits ++ 0b111111#6
  | .br mask off9 => 0b0000#4 ++ mask ++ off9
  | .jmp base => 0b1100#4 ++ 0b000#3 ++ base.bits ++ 0b000000#6
  | .jsr off11 => 0b0100#4 ++ 0b1#1 ++ off11
  | .jsrr base => 0b0100#4 ++ 0b000#3 ++ base.bits ++ 0b000000#6
  | .ld dr off9 => 0b0010#4 ++ dr.bits ++ off9
  | .ldi dr off9 => 0b1010#4 ++ dr.bits ++ off9
  | .ldr dr base off6 => 0b0110#4 ++ dr.bits ++ base.bits ++ off6
  | .lea dr off9 => 0b1110#4 ++ dr.bits ++ off9
  | .st sr off9 => 0b0011#4 ++ sr.bits ++ off9
  | .sti sr off9 => 0b1011#4 ++ sr.bits ++ off9
  | .str sr base off6 => 0b0111#4 ++ sr.bits ++ base.bits ++ off6
  | .trapGetc ign => 0b1111#4 ++ ign ++ 0x20#8
  | .trapOut ign => 0b1111#4 ++ ign ++ 0x21#8
  | .trapPuts ign => 0b1111#4 ++ ign ++ 0x22#8
  | .trapIn ign => 0b1111#4 ++ ign ++ 0x23#8
  | .trapPutsp ign => 0b1111#4 ++ ign ++ 0x24#8
  | .trapHalt ign => 0b1111#4 ++ ign ++ 0x25#8
  | .trapOther ign vect => 0b1111#4 ++ ign ++ vect
  | .res ign => 0b1101#4 ++ ign
  | .undef1000 ign => 0b1000#4 ++ ign

/-- The opcode number of an instruction (R90). -/
def Instr.opcode : Instr → BitVec 4
  | .addReg _ _ _ => 0b0001#4
  | .addImm _ _ _ => 0b0001#4
  | .andReg _ _ _ => 0b0101#4
  | .andImm _ _ _ => 0b0101#4
  | .not _ _ => 0b1001#4
  | .br _ _ => 0b0000#4
  | .jmp _ => 0b1100#4
  | .jsr _ => 0b0100#4
  | .jsrr _ => 0b0100#4
  | .ld _ _ => 0b0010#4
  | .ldi _ _ => 0b1010#4
  | .ldr _ _ _ => 0b0110#4
  | .lea _ _ => 0b1110#4
  | .st _ _ => 0b0011#4
  | .sti _ _ => 0b1011#4
  | .str _ _ _ => 0b0111#4
  | .trapGetc _ => 0b1111#4
  | .trapOut _ => 0b1111#4
  | .trapPuts _ => 0b1111#4
  | .trapIn _ => 0b1111#4
  | .trapPutsp _ => 0b1111#4
  | .trapHalt _ => 0b1111#4
  | .trapOther _ _ => 0b1111#4
  | .res _ => 0b1101#4
  | .undef1000 _ => 0b1000#4

/-- The decoder on a word as spec/opcode_table.json numbers it: every row is one 16-bit word (R80), bits
above `nbits` are 0, and the table has no wider row. -/
def decodeTableWord (nbits w : Nat) : Option Instr :=
  if nbits ≤ 16 then some (decode (BitVec.ofNat 16 (w % 2 ^ nbits))) else none

end Sys2Proof
end

