-- ==== Sys2Proof/Config.lean ====
section
/-! DEFINITION. What is fixed for one machine: the parameters of 00_scope.md R7 that are no input
(`RESET_COND`, `PUTSP_BASE`), with the spec's defaults, and the device addresses of R6. -/

namespace Sys2Proof

/-- The three states of the condition flag (10_state.md R25): exactly one holds at a time. -/
inductive Cond where
  | negative
  | zero
  | positive
  deriving DecidableEq, Repr

/-- The two values of the parameter `PUTSP_BASE` (R7, 43_trap.md R155). -/
inductive PutspBase where
  /-- the string starts at address 0: the documented behaviour -/
  | fixedZero
  /-- the string starts at the address in R0: the alternative the document mentions -/
  | fromR0
  deriving DecidableEq, Repr

/-- The parameters that are fixed for a machine. A state carries them, so that a statement about
every state is a statement about every parameter value (assumption 4). -/
structure Config where
  /-- `RESET_COND`, the flag state after reset (70_reset_and_hazards.md R211) -/
  resetCond : Cond
  /-- `PUTSP_BASE`, where PUTSP starts (43_trap.md R155) -/
  putspBase : PutspBase
  deriving DecidableEq, Repr

/-- The defaults of R7: `RESET_COND` is ZERO and `PUTSP_BASE` is `FIXED_ZERO`. -/
def Config.standard : Config := { resetCond := .zero, putspBase := .fixedZero }

/-- `KBSR_ADDR`, the keyboard status register (R6, R29). -/
def kbsrAddr : Word := 0xFE00#16

/-- `KBDR_ADDR`, the keyboard data register (R6, R30). -/
def kbdrAddr : Word := 0xFE02#16

/-- `KBSR_READY`, what a poll that finds a character writes to KBSR (R6, R52). -/
def kbsrReady : Word := 0x8000#16

end Sys2Proof
end

