-- ==== Sys2Proof/Machine/State.lean ====
section
/-! DEFINITION. The state of CORE and of the two things of its environment it interacts with
(10_state.md R20 to R41), as plain data, and the state after reset. -/

namespace Sys2Proof.Machine

/-- The eight general registers R0 to R7 (R20). -/
structure RegFile where
  r0 : Word
  r1 : Word
  r2 : Word
  r3 : Word
  r4 : Word
  r5 : Word
  r6 : Word
  r7 : Word
  deriving DecidableEq, Repr

/-- Memory (R28): a cell is a 16-bit word, the smallest thing an address names (R50, R51), kept as a list of
address and word in one canonical form; a cell that is not listed holds `0x0000`, its reset value (R40). -/
abbrev Memory := List (Nat × Word)

/-- The canonical form from the address `lo` on: addresses rise strictly and stay below 65536, and no listed
word is the `0x0000` an unlisted cell reads as. -/
def Memory.wfFrom (lo : Nat) : Memory → Bool
  | [] => true
  | (k, v) :: rest =>
    decide (lo ≤ k) && decide (k < 65536) && decide (v ≠ 0#16) && Memory.wfFrom (k + 1) rest

/-- The canonical form of a memory: equal contents are equal lists. -/
def Memory.wf (m : Memory) : Bool := Memory.wfFrom 0 m

/-- The run status (R31). -/
inductive Status where
  | running
  | halted
  | faulted
  deriving DecidableEq, Repr

/-- The two interfaces whose requests can fail (R180: an `IOError` records which one failed). -/
inductive Interface where
  /-- `KbdRead()` (R35) -/
  | kbd
  /-- `ConOut(b)` (R36) -/
  | con
  deriving DecidableEq, Repr

/-- The causes of 60_exceptions.md R180. -/
inductive Cause where
  | illegalOpcode
  | invalidTrapVector
  | ioError (failed : Interface)
  deriving DecidableEq, Repr

/-- The fault record (R32). The opcode `IR[15:12]`, the vector `IR[7:0]` and `fault_addr` are read off it by
`FaultRecord.opcode`, `FaultRecord.vector` and `FaultRecord.faultAddr`. -/
structure FaultRecord where
  cause : Cause
  /-- the instruction word `IR` -/
  ir : Word
  /-- the value of `pc` when the fault is raised -/
  faultPc : Word
  deriving DecidableEq, Repr

/-- What the environment does at one interface request (`KbdPoll`, `KbdRead` or `ConOut`): first it appends
`keys` to the pending input, then it answers `fail` if `fail` holds and the request has a failure answer
(R34 to R36). A character code is a non-negative integer of no stated width (R35). -/
structure Turn where
  keys : List Nat
  fail : Bool
  deriving DecidableEq, Repr

/-- A turn in which no key arrives and nothing fails. -/
def Turn.quiet : Turn := { keys := [], fail := false }

/-- The machine state. The last three fields are the model's own: `turns` and `lastTurn` are the
environment's future behaviour as plain data (assumption 1), `config` the parameters of R7 (assumption 4). -/
structure State where
  /-- R0 to R7 (R20) -/
  regs : RegFile
  /-- the program counter (R22) -/
  pc : Word
  /-- the condition-flag state (R25) -/
  cond : Cond
  /-- the 65536 cells, KBSR and KBDR among them (R28 to R30) -/
  mem : Memory
  /-- the run status (R31) -/
  status : Status
  /-- the fault record, none until a fatal condition (R32) -/
  faultRecord : Option FaultRecord
  /-- `KBD`, the pending input, oldest first (R34, R39) -/
  kbd : List Nat
  /-- `CON`, the bytes emitted so far, oldest first (R36) -/
  con : List Byte
  /-- what the environment does at the next interface requests, soonest first -/
  turns : List Turn
  /-- what it does at every request after those -/
  lastTurn : Turn
  /-- the machine's parameters -/
  config : Config
  deriving DecidableEq, Repr

/-- Why a step has no next state. Fatal conditions are not among these: they are the next states whose
status is FAULTED (R181). -/
inductive Fault where
  /-- Raised by TRAP PUTS and TRAP PUTSP when the string scan never meets a zero word, so that the
  instruction never completes (20_memory.md R67). A stuck state. Safe: the hardware has no next state either. -/
  | scanNeverEnds
  deriving DecidableEq, Repr

/-- Why the model gives an instruction no meaning. -/
inductive Refusal where
  /-- Raised by the dispatcher alone, for an instruction that has no meaning yet; no arm does so now.
  Safe: the model stops. -/
  | notModelled (mnemonic : String)
  deriving DecidableEq, Repr

/-- All eight registers zero (R40). -/
def RegFile.zero : RegFile :=
  { r0 := 0#16, r1 := 0#16, r2 := 0#16, r3 := 0#16, r4 := 0#16, r5 := 0#16, r6 := 0#16, r7 := 0#16 }

/-- The machine right after reset (R40, 70_reset_and_hazards.md R210): registers and memory zero, `cond` at the
default of `RESET_COND` (R211), no fault record, `CON` empty, running. The spec leaves the origin and the
environment's input open: the origin is 0 (assumption 2) and no key is pending or arrives (assumption 3). -/
def State.reset : State :=
  { regs := RegFile.zero
    pc := 0#16
    cond := Config.standard.resetCond
    mem := []
    status := .running
    faultRecord := none
    kbd := []
    con := []
    turns := []
    lastTurn := Turn.quiet
    config := Config.standard }

end Sys2Proof.Machine
end

