-- ==== Sys2Proof/Machine/Ops.lean ====
section
/-! DEFINITION. The named operations over registers, memory and the environment that every meaning is
written with: the primitives of 00_scope.md R11, the bus of 20_memory.md R52 and R55, the interfaces of
10_state.md R34 to R36, the fetch of 70_reset_and_hazards.md R217, and the entry of TRAP (43_trap.md R150),
of a fatal condition (60_exceptions.md R181) and of HALT (R188). The spec has no return from any of them
(R190). -/

namespace Sys2Proof.Machine

/-! ### Bytes of a word -/

/-- Bits 7:0 of a word, a character (R51). -/
def lowByte (w : Word) : Byte := w.extractLsb' 0 8

/-- Bits 15:8 of a word, the second character of a packed word (R155). -/
def highByte (w : Word) : Byte := w.extractLsb' 8 8

/-- `zext_8(c[7:0])` of a character code `c`: CORE keeps the low 8 bits of a code (R10, R35). -/
def charWord (c : Nat) : Word := (BitVec.ofNat 8 c).setWidth 16

/-! ### Registers -/

/-- `x[i]` (R11). -/
def RegFile.get (f : RegFile) : Reg → Word
  | .r0 => f.r0
  | .r1 => f.r1
  | .r2 => f.r2
  | .r3 => f.r3
  | .r4 => f.r4
  | .r5 => f.r5
  | .r6 => f.r6
  | .r7 => f.r7

/-- `x[i] <- v` (R11): every register is an ordinary one, R0 too (R20). -/
def RegFile.set (f : RegFile) (r : Reg) (v : Word) : RegFile :=
  match r with
  | .r0 => { f with r0 := v }
  | .r1 => { f with r1 := v }
  | .r2 => { f with r2 := v }
  | .r3 => { f with r3 := v }
  | .r4 => { f with r4 := v }
  | .r5 => { f with r5 := v }
  | .r6 => { f with r6 := v }
  | .r7 => { f with r7 := v }

/-- The content of a general register. -/
def State.reg (s : State) (r : Reg) : Word := s.regs.get r

/-- The write of a general register. It does not touch the flags by itself (R11). -/
def State.setReg (s : State) (r : Reg) (v : Word) : State := { s with regs := s.regs.set r v }

/-- `pc <- v` (R11). -/
def State.setPc (s : State) (v : Word) : State := { s with pc := v }

/-! ### Memory cells -/

/-- The word listed for the address `a`, or the `0x0000` of an unlisted cell. -/
def Memory.lookup (a : Nat) : Memory → Word
  | [] => 0#16
  | (k, v) :: rest => if k = a then v else Memory.lookup a rest

/-- `MEM[a]`, the raw content of a cell (R11). -/
def Memory.read (m : Memory) (a : Word) : Word := Memory.lookup a.toNat m

/-- List the word `v` for the address `a`, in its place. -/
def Memory.insert (a : Nat) (v : Word) : Memory → Memory
  | [] => [(a, v)]
  | (k, w) :: rest =>
    if a < k then (a, v) :: (k, w) :: rest
    else if a = k then (a, v) :: rest
    else (k, w) :: Memory.insert a v rest

/-- Take the address `a` off the list. -/
def Memory.erase (a : Nat) : Memory → Memory
  | [] => []
  | (k, w) :: rest => if k = a then Memory.erase a rest else (k, w) :: Memory.erase a rest

/-- `MEM[a] <- v`, in canonical form: the word an unlisted cell reads as is not listed. -/
def Memory.write (m : Memory) (a v : Word) : Memory :=
  if v = 0#16 then Memory.erase a.toNat m else Memory.insert a.toNat v m

/-- The ACCESS interface's read of a cell: raw, with no intercept (R37). -/
def State.peek (s : State) (a : Word) : Word := s.mem.read a

/-- `MemWrite(a, 16, v)`: an ordinary store at every address, never intercepted (R55). -/
def State.memWrite (s : State) (a v : Word) : State := { s with mem := s.mem.write a v }

/-! ### The environment -/

/-- What the environment does at the next request. -/
def State.turn (s : State) : Turn :=
  match s.turns with
  | [] => s.lastTurn
  | t :: _ => t

/-- The state in which the next request is answered: the keys of its turn have arrived (R34). -/
def State.arrive (s : State) : State :=
  { s with kbd := s.kbd ++ s.turn.keys, turns := s.turns.tail }

/-- `KbdPoll()` (R34): never blocks and never fails; a character it reports is removed. -/
def State.kbdPoll (s : State) : Option Nat × State :=
  match s.arrive.kbd with
  | [] => (none, s.arrive)
  | c :: rest => (some c, { s.arrive with kbd := rest })

/-- The answers of `KbdRead()` (R35): a character, a failure, or none yet. -/
inductive KbdAnswer where
  | char (c : Nat)
  | fail
  | wait
  deriving DecidableEq, Repr

/-- `KbdRead()` (R35): the request waits while no character is pending. -/
def State.kbdRead (s : State) : KbdAnswer × State :=
  if s.turn.fail then (.fail, s.arrive)
  else
    match s.arrive.kbd with
    | [] => (.wait, s.arrive)
    | c :: rest => (.char c, { s.arrive with kbd := rest })

/-- `ConOut(b)` (R36): the byte is in `CON`, or the answer is `fail` and `CON` is as it was. The Boolean says
whether the request succeeded. -/
def State.conOut (s : State) (b : Byte) : Bool × State :=
  if s.turn.fail then (false, s.arrive)
  else (true, { s.arrive with con := s.arrive.con ++ [b] })

/-- `ConOut` of each byte in order, up to the first failure (R36, R187). -/
def State.conOutAll (s : State) : List Byte → Bool × State
  | [] => (true, s)
  | b :: bs =>
    match s.conOut b with
    | (true, s') => s'.conOutAll bs
    | (false, s') => (false, s')

/-! ### The read path -/

/-- The keyboard poll that a read of `0xFE00` performs before it returns (R52): it overwrites the whole
of KBSR and, if it finds a character, the whole of KBDR. -/
def State.latchPoll (s : State) : State :=
  match s.kbdPoll with
  | (some c, s') => (s'.memWrite kbsrAddr kbsrReady).memWrite kbdrAddr (charWord c)
  | (none, s') => s'.memWrite kbsrAddr 0#16

/-- The state after the intercept of a read of `a`: only `0xFE00` is intercepted (R52, 90_conflicts.md C1). -/
def State.intercept (s : State) (a : Word) : State := if a = kbsrAddr then s.latchPoll else s

/-- `MemRead(a, 16)` (R52): the intercept first, then the content of the cell. -/
def State.memRead (s : State) (a : Word) : Word × State := ((s.intercept a).peek a, s.intercept a)

/-- Steps 1 and 2 of the instruction cycle (R217): `IR <- MemRead(pc, 16)`, then `pc <- pc + 1`. -/
def State.fetch (s : State) : Word × State :=
  ((s.memRead s.pc).1, (s.memRead s.pc).2.setPc (s.pc + 1#16))

/-! ### Entering a trap, ending a run, waiting -/

/-- Entry of a TRAP instruction (R150, R189): the incremented `pc` is saved in R7 and nothing else is saved
or changed. -/
def State.trapEnter (s : State) : State := s.setReg .r7 s.pc

/-- `raise cause` with the instruction word `ir` (R181): the status and the fault record, nothing else. -/
def State.raise (s : State) (cause : Cause) (ir : Word) : State :=
  { s with status := .faulted, faultRecord := some { cause := cause, ir := ir, faultPc := s.pc } }

/-- `halt` (R188). -/
def State.halt (s : State) : State := { s with status := .halted }

/-- A GETC or IN that waits (R158): the increment of `pc` is taken back, so that the whole step has changed
nothing of CORE and the next step makes the same request again. -/
def State.hold (s : State) : State := s.setPc (s.pc - 1#16)

/-! ### The fault record (R32) -/

/-- The offending opcode, `IR[15:12]`. -/
def FaultRecord.opcode (r : FaultRecord) : BitVec 4 := opcodeField r.ir

/-- The vector of an invalid TRAP, `IR[7:0]` (R183). -/
def FaultRecord.vector (r : FaultRecord) : BitVec 8 := fieldVect r.ir

/-- `fault_addr`, the address the word was fetched from. -/
def FaultRecord.faultAddr (r : FaultRecord) : Word := r.faultPc - 1#16

end Sys2Proof.Machine
end

