-- ==== Sys2Proof/Machine/Flags.lean ====
section
/-! DEFINITION. The condition flag: `setcc` (10_state.md R26), its one-hot encoding (R27) and the mask
test of BR (41_control.md R120). There is no other flag (R25). -/

namespace Sys2Proof.Machine

/-- The flag state of a value: a test of bit 15, then of zero (R26). -/
def condOf (v : Word) : Cond :=
  if v.getLsbD 15 then .negative else if v = 0#16 then .zero else .positive

/-- `setcc(v)` (R26). -/
def State.setcc (s : State) (v : Word) : State := { s with cond := condOf v }

/-- The register write of an instruction that defines a result, with its flag update (R26). -/
def State.setResult (s : State) (r : Reg) (v : Word) : State := (s.setReg r v).setcc v

/-- `condbits` (R27): NEGATIVE, ZERO, POSITIVE are the mask bits n, z, p. -/
def condBits : Cond → BitVec 3
  | .negative => 0b100#3
  | .zero => 0b010#3
  | .positive => 0b001#3

/-- BR branches iff `(mask & condbits) != 0`: a mask test, not an equality test (R120). -/
def branchTaken (mask : BitVec 3) (c : Cond) : Bool := decide (mask &&& condBits c ≠ 0#3)

end Sys2Proof.Machine
end

