-- ==== Sys2Proof/Machine/Operands.lean ====
section
/-! DEFINITION. Operand forms: sign extension (00_scope.md R10, 30_encoding.md R82) and the four addressing
modes (42_load_store.md R137). In all of them `pc` is the incremented program counter (10_state.md R23). -/

namespace Sys2Proof.Machine

/-- `sext_N` of a field of `N` bits (R10). -/
def sext {n : Nat} (f : BitVec n) : Word := f.signExtend 16

/-- The pc-relative address of a 9-bit offset (R137). -/
def State.pcRel9 (s : State) (off9 : BitVec 9) : Word := s.pc + sext off9

/-- The pc-relative target of JSR (R122). -/
def State.pcRel11 (s : State) (off11 : BitVec 11) : Word := s.pc + sext off11

/-- Base plus offset (R137). -/
def State.baseOff6 (s : State) (base : Reg) (off6 : BitVec 6) : Word := s.reg base + sext off6

/-- The pointer of an indirect access: the word read at the pc-relative address, through the
intercept, and the state after that read (R131, R135). -/
def State.indirect9 (s : State) (off9 : BitVec 9) : Word × State := s.memRead (s.pcRel9 off9)

end Sys2Proof.Machine
end

