-- ==== Sys2Proof/Machine/Control.lean ====
section
/-! DEFINITION. BR, JMP, JSR, JSRR (41_control.md R120 to R124). -/

namespace Sys2Proof.Machine

/-- R120. -/
def execBr (mask : BitVec 3) (off9 : BitVec 9) (s : State) : Host.Outcome State Fault Refusal :=
  .next (if branchTaken mask s.cond then s.setPc (s.pcRel9 off9) else s)

/-- R121. -/
def execJmp (base : Reg) (s : State) : Host.Outcome State Fault Refusal :=
  .next (s.setPc (s.reg base))

/-- R122. The write of R7 sets no flags (10_state.md R27). -/
def execJsr (off11 : BitVec 11) (s : State) : Host.Outcome State Fault Refusal :=
  .next ((s.setReg .r7 s.pc).setPc (s.pcRel11 off11))

/-- R123. The base register is read after R7 is written, so `JSRR R7` falls through. -/
def execJsrr (base : Reg) (s : State) : Host.Outcome State Fault Refusal :=
  .next ((s.setReg .r7 s.pc).setPc ((s.setReg .r7 s.pc).reg base))

end Sys2Proof.Machine
end

