-- ==== Sys2Proof/Machine/LoadStore.lean ====
section
/-! DEFINITION. LD, LDI, LDR, LEA, ST, STI, STR (42_load_store.md R130 to R137). Every read is a `MemRead`
and can poll the keyboard (20_memory.md R54). -/

namespace Sys2Proof.Machine

/-- What the three loads share: one `MemRead` of the effective address, the result and its flags (R137). -/
def State.load (s : State) (dr : Reg) (ea : Word) : State :=
  (s.memRead ea).2.setResult dr (s.memRead ea).1

/-- R130. -/
def execLd (dr : Reg) (off9 : BitVec 9) (s : State) : Host.Outcome State Fault Refusal :=
  .next (s.load dr (s.pcRel9 off9))

/-- R131. Two sequential reads: the pointer, then the data. -/
def execLdi (dr : Reg) (off9 : BitVec 9) (s : State) : Host.Outcome State Fault Refusal :=
  .next ((s.indirect9 off9).2.load dr (s.indirect9 off9).1)

/-- R132. -/
def execLdr (dr base : Reg) (off6 : BitVec 6) (s : State) : Host.Outcome State Fault Refusal :=
  .next (s.load dr (s.baseOff6 base off6))

/-- R133. No memory access, and the flags are set. -/
def execLea (dr : Reg) (off9 : BitVec 9) (s : State) : Host.Outcome State Fault Refusal :=
  .next (s.setResult dr (s.pcRel9 off9))

/-- R134. -/
def execSt (sr : Reg) (off9 : BitVec 9) (s : State) : Host.Outcome State Fault Refusal :=
  .next (s.memWrite (s.pcRel9 off9) (s.reg sr))

/-- R135. The pointer read goes through the intercept; the store follows it. -/
def execSti (sr : Reg) (off9 : BitVec 9) (s : State) : Host.Outcome State Fault Refusal :=
  .next ((s.indirect9 off9).2.memWrite (s.indirect9 off9).1 (s.reg sr))

/-- R136. -/
def execStr (sr base : Reg) (off6 : BitVec 6) (s : State) : Host.Outcome State Fault Refusal :=
  .next (s.memWrite (s.baseOff6 base off6) (s.reg sr))

end Sys2Proof.Machine
end

