-- ==== Sys2Proof/Machine/Reserved.lean ====
section
/-! DEFINITION. The reserved opcode and the undefined opcode (44_reserved.md R170, R171). -/

namespace Sys2Proof.Machine

/-- RES (R170). -/
def execRes (ign : BitVec 12) (s : State) : Host.Outcome State Fault Refusal :=
  .next (s.raise .illegalOpcode (encode (.res ign)))

/-- Opcode `1000` (R171). -/
def execUndef1000 (ign : BitVec 12) (s : State) : Host.Outcome State Fault Refusal :=
  .next (s.raise .illegalOpcode (encode (.undef1000 ign)))

end Sys2Proof.Machine
end

