-- ==== Sys2Proof/Machine/Trap.lean ====
section
/-! DEFINITION. TRAP and the six service routines (43_trap.md R150 to R159). A routine is part of the TRAP
instruction: it runs to completion inside one step. `encode` of the instruction is the word `IR` that a
fault record holds. -/

namespace Sys2Proof.Machine

/-- How a string scan ends. -/
inductive ScanEnd where
  /-- a zero word was read; the state after that read -/
  | done (s : State)
  /-- a `ConOut` answered `fail`; the state after that answer -/
  | failed (s : State)
  /-- no zero word within the bound -/
  | endless
  deriving DecidableEq, Repr

/-- The loop of PUTS and PUTSP (R153, R155): read a word at `a`, stop at `0x0000`, emit the bytes of the
word, go on at `a + 1`. The first argument bounds the number of reads. -/
def scan (bytes : Word → List Byte) : Nat → Word → State → ScanEnd
  | 0, _, _ => .endless
  | n + 1, a, s =>
    if (s.memRead a).1 = 0#16 then .done (s.memRead a).2
    else
      match (s.memRead a).2.conOutAll (bytes (s.memRead a).1) with
      | (true, s') => scan bytes n (a + 1#16) s'
      | (false, s') => .failed s'

/-- The bytes PUTS emits for a word: its low byte (R153). -/
def putsBytes (w : Word) : List Byte := [lowByte w]

/-- The bytes PUTSP emits for a word: the low byte always, then the high byte if it is not zero (R155). -/
def putspBytes (w : Word) : List Byte :=
  if highByte w = 0#8 then [lowByte w] else [lowByte w, highByte w]

/-- A bound on the reads of a scan that ends (assumption 6). Each pass over the 65536 cells polls once at
`0xFE00`; after one pass for each character the environment will supply, each turn it has planned, and
one more, the scan repeats itself and cannot end (20_memory.md R67). -/
def scanBound (s : State) : Nat :=
  65536 * (s.kbd.length + s.turns.length + (s.turns.map (fun t => t.keys.length)).sum
    + s.lastTurn.keys.length + 2)

/-- The rest of a PUTS or PUTSP once its scan is known; `ir` is the instruction word. -/
def finishScan (ir : Word) : ScanEnd → Host.Outcome State Fault Refusal
  | .done s => .next s
  | .failed s => .next (s.raise (.ioError .con) ir)
  | .endless => .fault .scanNeverEnds

/-- GETC (R151), blocking as R158 says: R7 is written only when the request is answered. No flags. -/
def execTrapGetc (ign : BitVec 4) (s : State) : Host.Outcome State Fault Refusal :=
  match s.kbdRead with
  | (.wait, s') => .next s'.hold
  | (.fail, s') => .next (s'.trapEnter.raise (.ioError .kbd) (encode (.trapGetc ign)))
  | (.char c, s') => .next (s'.trapEnter.setReg .r0 (charWord c))

/-- OUT (R152). -/
def execTrapOut (ign : BitVec 4) (s : State) : Host.Outcome State Fault Refusal :=
  match s.trapEnter.conOut (lowByte (s.trapEnter.reg .r0)) with
  | (true, s') => .next s'
  | (false, s') => .next (s'.raise (.ioError .con) (encode (.trapOut ign)))

/-- PUTS (R153). -/
def execTrapPuts (ign : BitVec 4) (s : State) : Host.Outcome State Fault Refusal :=
  finishScan (encode (.trapPuts ign))
    (scan putsBytes (scanBound s) (s.trapEnter.reg .r0) s.trapEnter)

/-- IN (R154): the register, then the echo, then the flags; blocking as R158 says. -/
def execTrapIn (ign : BitVec 4) (s : State) : Host.Outcome State Fault Refusal :=
  match s.kbdRead with
  | (.wait, s') => .next s'.hold
  | (.fail, s') => .next (s'.trapEnter.raise (.ioError .kbd) (encode (.trapIn ign)))
  | (.char c, s') =>
    match (s'.trapEnter.setReg .r0 (charWord c)).conOut (lowByte (charWord c)) with
    | (true, s'') => .next (s''.setcc (charWord c))
    | (false, s'') => .next (s''.raise (.ioError .con) (encode (.trapIn ign)))

/-- Where the PUTSP string starts (R155). -/
def putspStart (s : State) : Word :=
  match s.config.putspBase with
  | .fixedZero => 0#16
  | .fromR0 => s.reg .r0

/-- PUTSP (R155). -/
def execTrapPutsp (ign : BitVec 4) (s : State) : Host.Outcome State Fault Refusal :=
  finishScan (encode (.trapPutsp ign))
    (scan putspBytes (scanBound s) (putspStart s.trapEnter) s.trapEnter)

/-- HALT (R156). It cannot fault, so its ignored bits are of no account. -/
def execTrapHalt (s : State) : Host.Outcome State Fault Refusal :=
  .next s.trapEnter.halt

/-- TRAP with an undefined vector (R157): R7 is written, then the fault is raised. -/
def execTrapOther (ign : BitVec 4) (vect : BitVec 8) (s : State) : Host.Outcome State Fault Refusal :=
  .next (s.trapEnter.raise .invalidTrapVector (encode (.trapOther ign vect)))

end Sys2Proof.Machine
end

