-- ==== Sys2Proof/Machine/Dispatch.lean ====
section
/-! DEFINITION. One arm for each instruction. -/

namespace Sys2Proof.Machine

def exec (i : Instr) (s : State) : Host.Outcome State Fault Refusal :=
  match i with
  | .addReg dr sr1 sr2 => Sys2Proof.Machine.execAddReg dr sr1 sr2 s
  | .addImm dr sr1 imm5 => Sys2Proof.Machine.execAddImm dr sr1 imm5 s
  | .andReg dr sr1 sr2 => Sys2Proof.Machine.execAndReg dr sr1 sr2 s
  | .andImm dr sr1 imm5 => Sys2Proof.Machine.execAndImm dr sr1 imm5 s
  | .not dr sr => Sys2Proof.Machine.execNot dr sr s
  | .br mask off9 => Sys2Proof.Machine.execBr mask off9 s
  | .jmp base => Sys2Proof.Machine.execJmp base s
  | .jsr off11 => Sys2Proof.Machine.execJsr off11 s
  | .jsrr base => Sys2Proof.Machine.execJsrr base s
  | .ld dr off9 => Sys2Proof.Machine.execLd dr off9 s
  | .ldi dr off9 => Sys2Proof.Machine.execLdi dr off9 s
  | .ldr dr base off6 => Sys2Proof.Machine.execLdr dr base off6 s
  | .lea dr off9 => Sys2Proof.Machine.execLea dr off9 s
  | .st sr off9 => Sys2Proof.Machine.execSt sr off9 s
  | .sti sr off9 => Sys2Proof.Machine.execSti sr off9 s
  | .str sr base off6 => Sys2Proof.Machine.execStr sr base off6 s
  | .trapGetc ign => Sys2Proof.Machine.execTrapGetc ign s
  | .trapOut ign => Sys2Proof.Machine.execTrapOut ign s
  | .trapPuts ign => Sys2Proof.Machine.execTrapPuts ign s
  | .trapIn ign => Sys2Proof.Machine.execTrapIn ign s
  | .trapPutsp ign => Sys2Proof.Machine.execTrapPutsp ign s
  | .trapHalt _ => Sys2Proof.Machine.execTrapHalt s
  | .trapOther ign vect => Sys2Proof.Machine.execTrapOther ign vect s
  | .res ign => Sys2Proof.Machine.execRes ign s
  | .undef1000 ign => Sys2Proof.Machine.execUndef1000 ign s

end Sys2Proof.Machine
end

