-- ==== Sys2Proof/Machine/Load.lean ====
section
/-! DEFINITION. The LOAD and RUN interfaces (70_reset_and_hazards.md R210 to R216): how a program comes to
stand in memory and to run. They act before the first step and are no part of a step. -/

namespace Sys2Proof.Machine

/-- An image: the origin and the words of the payload (R212). -/
structure Image where
  origin : Word
  words : List Word
  deriving DecidableEq, Repr

/-- The load errors (R213, 60_exceptions.md R198): the image is refused and no run begins. -/
inductive LoadError where
  /-- fewer than the two bytes of the header (R213 item 2) -/
  | noHeader
  /-- an odd number of payload bytes (R213 item 2) -/
  | oddPayload
  /-- more words than there are cells from the origin on (R213 item 1) -/
  | overflow
  deriving DecidableEq, Repr

/-- A big-endian pair of bytes: the first is bits 15:8 (20_memory.md R56). -/
def wordOfBytes (hi lo : Byte) : Word := hi ++ lo

/-- The payload's words (R212). -/
def payloadWords : List Byte → Except LoadError (List Word)
  | [] => .ok []
  | [_] => .error .oddPayload
  | hi :: lo :: rest =>
    match payloadWords rest with
    | .ok ws => .ok (wordOfBytes hi lo :: ws)
    | .error e => .error e

/-- The image a byte sequence holds (R212, R213). -/
def parseImage : List Byte → Except LoadError Image
  | [] => .error .noHeader
  | [_] => .error .noHeader
  | hi :: lo :: rest =>
    match payloadWords rest with
    | .ok ws => .ok { origin := wordOfBytes hi lo, words := ws }
    | .error e => .error e

/-- Plain stores of the words from the address `a` on, with no intercept (R212). -/
def State.storeWords (s : State) (a : Word) : List Word → State
  | [] => s
  | w :: ws => (s.memWrite a w).storeWords (a + 1#16) ws

/-- `Load(ORIGIN, IMAGE)` (R212): refused when the image does not fit below the end of memory. -/
def State.loadImage (s : State) (img : Image) : Except LoadError State :=
  if img.origin.toNat + img.words.length ≤ 65536 then
    .ok ((s.storeWords img.origin img.words).setPc img.origin)
  else .error .overflow

/-- The reset of R210 on a machine with the parameters `cfg`, in an environment that holds the pending input
`kbd` and behaves as `turns` and then `lastTurn` say. -/
def powerOn (cfg : Config) (kbd : List Nat) (turns : List Turn) (lastTurn : Turn) : State :=
  { State.reset with
    cond := cfg.resetCond, config := cfg, kbd := kbd, turns := turns, lastTurn := lastTurn }

/-- What `Run()` does before its first cycle (R216). -/
def State.run (s : State) : State := { s with status := .running }

/-- Reset, load, run (R210), from the bytes of an image. -/
def boot (cfg : Config) (kbd : List Nat) (turns : List Turn) (lastTurn : Turn)
    (bytes : List Byte) : Except LoadError State :=
  match parseImage bytes with
  | .error e => .error e
  | .ok img =>
    match (powerOn cfg kbd turns lastTurn).loadImage img with
    | .error e => .error e
    | .ok s => .ok s.run

/-- The word `w` placed where the next fetch reads, on a running machine (assumption 2). -/
def State.placeWord (s : State) (w : Word) : State :=
  { s with status := .running, faultRecord := none, mem := s.mem.write s.pc w }

end Sys2Proof.Machine
end

