-- ==== Sys2Proof/Machine/Step.lean ====
section
/-! DEFINITION. The step: one instruction cycle (70_reset_and_hazards.md R217). -/

namespace Sys2Proof.Machine

/-- One step. While the status is RUNNING it is one instruction cycle: fetch, increment, decode, execute. In
a terminal status no further cycle is executed (10_state.md R31), and the state stays as it is (assumption 7). -/
def step (s : State) : Host.Outcome State Fault Refusal :=
  match s.status with
  | .running => exec (decode s.fetch.1) s.fetch.2
  | .halted => .next s
  | .faulted => .next s

/-- The state with an instruction word where the next step fetches it; every instruction is one word (R80). -/
def State.withFetchWord (s : State) (nbits w : Nat) : State :=
  s.placeWord (BitVec.ofNat 16 (w % 2 ^ nbits))

end Sys2Proof.Machine
end

