-- ==== Sys2Proof/Safety.lean ====
section
/-! DEFINITION. The terms that claims are stated in: the ends of a run, reachability, the invariant of the
machine's states, and the tables of 10_state.md R21, R24 and R27 and of 20_memory.md R66 as functions of the
instruction. -/

namespace Sys2Proof

open Sys2Proof.Machine

/-- The end of a run that a claim about a program speaks of (60_exceptions.md R188). -/
def EndedWell (s : State) : Prop := s.status = .halted

/-- The run went wrong (R185): a terminal state that is never the successful end of a run. -/
def WentWrong (s : State) : Prop := s.status = .faulted

/-- `t` is reached from `s` in `k` steps. -/
def Reaches (k : Nat) (s t : State) : Prop := Sys2Proof.core.run k s = .next t

/-! ### The invariant -/

/-- A fault record says what its cause requires of the instruction word (R180): an illegal opcode is 8 or
13, an invalid vector is a TRAP word's, and only a service routine that uses an interface fails on it. -/
def consistentRecord (r : FaultRecord) : Bool :=
  match r.cause with
  | .illegalOpcode => r.opcode == 0b1000#4 || r.opcode == 0b1101#4
  | .invalidTrapVector => r.opcode == 0b1111#4 && !definedVector r.vector
  | .ioError .kbd => r.opcode == 0b1111#4 && (r.vector == 0x20#8 || r.vector == 0x23#8)
  | .ioError .con =>
    r.opcode == 0b1111#4 &&
      (r.vector == 0x21#8 || r.vector == 0x22#8 || r.vector == 0x23#8 || r.vector == 0x24#8)

/-- The invariant: memory is in canonical form, a fault record is held exactly in the status FAULTED, and it
fits its cause and holds the `pc` of the fault (R31, R32). -/
structure Inv (s : State) : Prop where
  memory : s.mem.wf = true
  recorded : s.faultRecord.isSome = true ↔ s.status = .faulted
  consistent : ∀ r, s.faultRecord = some r → consistentRecord r = true ∧ r.faultPc = s.pc

/-! ### What a result is -/

/-- `t` is `s` with the result `v` in `dr` and the flag of `v` (R26, 40_operate.md R115 item 5), and nothing
else changed: no other register, not `pc`, no cell of memory, no other field. -/
structure DefinesResult (s t : State) (dr : Reg) (v : Word) : Prop where
  written : t.reg dr = v
  others : ∀ r, r ≠ dr → t.reg r = s.reg r
  negative : 0x8000 ≤ v.toNat → t.cond = .negative
  zero : v.toNat = 0 → t.cond = .zero
  positive : 0 < v.toNat → v.toNat < 0x8000 → t.cond = .positive
  frame : t = { s with regs := t.regs, cond := t.cond }

/-- Every register but those of `rs` holds in `t` what it holds in `s`. -/
def KeepsOthers (s t : State) (rs : List Reg) : Prop := ∀ r, r ∉ rs → t.reg r = s.reg r

/-- `t` is FAULTED with this cause and word and the `pc` of the fault (R32, R181). -/
def FaultedWith (t : State) (cause : Cause) (ir : Word) : Prop :=
  t.status = .faulted ∧ t.faultRecord = some { cause := cause, ir := ir, faultPc := t.pc }

/-! ### The environment -/

/-- The characters pending when the next request is answered (R34). -/
def pendingInput (s : State) : List Nat := s.kbd ++ s.turn.keys

/-- No request fails, now or later. -/
def NeverFails (s : State) : Prop := (∀ t ∈ s.turns, t.fail = false) ∧ s.lastTurn.fail = false

/-- What the environment does at the request number `n` from now, the next one being number 0. -/
def turnAt (s : State) (n : Nat) : Turn := s.turns.getD n s.lastTurn

/-- The characters that arrive at `n` requests in a row, from the number `i` on (R34). -/
def arriving (s : State) (i n : Nat) : List Nat := (List.range' i n).flatMap fun j => (turnAt s j).keys

/-- `s` once `n` requests are answered that took no character, `bytes` having been emitted (R34, R36). -/
def afterRequests (s : State) (n : Nat) (bytes : List Byte) : State :=
  { s with con := s.con ++ bytes, kbd := s.kbd ++ arriving s 0 n, turns := s.turns.drop n }

/-- A GETC or IN that waits (43_trap.md R158): no character is pending and the keyboard has not failed. -/
def Waits (i : Instr) (s : State) : Prop :=
  (∃ ign, i = .trapGetc ign ∨ i = .trapIn ign) ∧ s.turn.fail = false ∧ pendingInput s = []

/-- `s` with another pending input and another behaviour of the environment. -/
def withEnv (s : State) (kbd : List Nat) (turns : List Turn) (lastTurn : Turn) : State :=
  { s with kbd := kbd, turns := turns, lastTurn := lastTurn }

/-! ### Tables of the spec -/

/-- The registers an instruction writes (R21). -/
def writesRegs : Instr → List Reg
  | .addReg dr _ _ => [dr]
  | .addImm dr _ _ => [dr]
  | .andReg dr _ _ => [dr]
  | .andImm dr _ _ => [dr]
  | .not dr _ => [dr]
  | .br _ _ => []
  | .jmp _ => []
  | .jsr _ => [.r7]
  | .jsrr _ => [.r7]
  | .ld dr _ => [dr]
  | .ldi dr _ => [dr]
  | .ldr dr _ _ => [dr]
  | .lea dr _ => [dr]
  | .st _ _ => []
  | .sti _ _ => []
  | .str _ _ _ => []
  | .trapGetc _ => [.r7, .r0]
  | .trapOut _ => [.r7]
  | .trapPuts _ => [.r7]
  | .trapIn _ => [.r7, .r0]
  | .trapPutsp _ => [.r7]
  | .trapHalt _ => [.r7]
  | .trapOther _ _ => [.r7]
  | .res _ => []
  | .undef1000 _ => []

/-- The instructions that call `setcc` (R27). -/
def setsCond : Instr → Bool
  | .addReg _ _ _ => true
  | .addImm _ _ _ => true
  | .andReg _ _ _ => true
  | .andImm _ _ _ => true
  | .not _ _ => true
  | .br _ _ => false
  | .jmp _ => false
  | .jsr _ => false
  | .jsrr _ => false
  | .ld _ _ => true
  | .ldi _ _ => true
  | .ldr _ _ _ => true
  | .lea _ _ => true
  | .st _ _ => false
  | .sti _ _ => false
  | .str _ _ _ => false
  | .trapGetc _ => false
  | .trapOut _ => false
  | .trapPuts _ => false
  | .trapIn _ => true
  | .trapPutsp _ => false
  | .trapHalt _ => false
  | .trapOther _ _ => false
  | .res _ => false
  | .undef1000 _ => false

/-- `pc` at the end of the instruction's cycle (R24), from the state after the fetch, whose `pc` is `a + 1`. -/
def pcAfter (i : Instr) (s : State) : Word :=
  match i with
  | .br mask off9 =>
    if (mask.getLsbD 2 ∧ s.cond = .negative) ∨ (mask.getLsbD 1 ∧ s.cond = .zero) ∨
        (mask.getLsbD 0 ∧ s.cond = .positive) then s.pc + sext off9 else s.pc
  | .jmp base => s.reg base
  | .jsr off11 => s.pc + sext off11
  | .jsrr base => if base = .r7 then s.pc else s.reg base
  | .addReg _ _ _ => s.pc
  | .addImm _ _ _ => s.pc
  | .andReg _ _ _ => s.pc
  | .andImm _ _ _ => s.pc
  | .not _ _ => s.pc
  | .ld _ _ => s.pc
  | .ldi _ _ => s.pc
  | .ldr _ _ _ => s.pc
  | .lea _ _ => s.pc
  | .st _ _ => s.pc
  | .sti _ _ => s.pc
  | .str _ _ _ => s.pc
  | .trapGetc _ => s.pc
  | .trapOut _ => s.pc
  | .trapPuts _ => s.pc
  | .trapIn _ => s.pc
  | .trapPutsp _ => s.pc
  | .trapHalt _ => s.pc
  | .trapOther _ _ => s.pc
  | .res _ => s.pc
  | .undef1000 _ => s.pc

/-- The store of an instruction: its address and the word stored (R66; 42_load_store.md R134 to R136). -/
def storeOf (i : Instr) (s : State) : Option (Word × Word) :=
  match i with
  | .st sr off9 => some (s.pcRel9 off9, s.reg sr)
  | .sti sr off9 => some ((s.indirect9 off9).1, s.reg sr)
  | .str sr base off6 => some (s.baseOff6 base off6, s.reg sr)
  | .addReg _ _ _ => none
  | .addImm _ _ _ => none
  | .andReg _ _ _ => none
  | .andImm _ _ _ => none
  | .not _ _ => none
  | .br _ _ => none
  | .jmp _ => none
  | .jsr _ => none
  | .jsrr _ => none
  | .ld _ _ => none
  | .ldi _ _ => none
  | .ldr _ _ _ => none
  | .lea _ _ => none
  | .trapGetc _ => none
  | .trapOut _ => none
  | .trapPuts _ => none
  | .trapIn _ => none
  | .trapPutsp _ => none
  | .trapHalt _ => none
  | .trapOther _ _ => none
  | .res _ => none
  | .undef1000 _ => none

/-- The instruction uses neither the keyboard nor the console (R159, R218): it is no TRAP with a routine that
does, and none of the data addresses it reads (R66) is `0xFE00`. -/
def KeyboardFree (i : Instr) (s : State) : Prop :=
  match i with
  | .ld _ off9 => s.pcRel9 off9 ≠ kbsrAddr
  | .ldi _ off9 => s.pcRel9 off9 ≠ kbsrAddr ∧ s.mem.read (s.pcRel9 off9) ≠ kbsrAddr
  | .ldr _ base off6 => s.baseOff6 base off6 ≠ kbsrAddr
  | .sti _ off9 => s.pcRel9 off9 ≠ kbsrAddr
  | .trapGetc _ => False
  | .trapOut _ => False
  | .trapPuts _ => False
  | .trapIn _ => False
  | .trapPutsp _ => False
  | .addReg _ _ _ => True
  | .addImm _ _ _ => True
  | .andReg _ _ _ => True
  | .andImm _ _ _ => True
  | .not _ _ => True
  | .br _ _ => True
  | .jmp _ => True
  | .jsr _ => True
  | .jsrr _ => True
  | .lea _ _ => True
  | .st _ _ => True
  | .str _ _ _ => True
  | .trapHalt _ => True
  | .trapOther _ _ => True
  | .res _ => True
  | .undef1000 _ => True

/-! ### Strings and what the string traps do with them -/

/-- The words `ws`, none of them zero, stand in memory at `a`, `a + 1`, ..., in no cell at `0xFE00`. -/
def WordsAt (s : State) : Word → List Word → Prop
  | _, [] => True
  | a, w :: ws => a ≠ kbsrAddr ∧ w ≠ 0#16 ∧ s.mem.read a = w ∧ WordsAt s (a + 1#16) ws

/-- A string (R153): the words `ws`, then a zero word, that one too not at `0xFE00`. -/
def StringAt (s : State) (a : Word) (ws : List Word) : Prop :=
  WordsAt s a ws ∧ a + BitVec.ofNat 16 ws.length ≠ kbsrAddr ∧ s.mem.read (a + BitVec.ofNat 16 ws.length) = 0#16

/-- What PUTS or PUTSP does (43_trap.md R150, R153, R155; the reads are those of 20_memory.md R54, the spec's
decision D16), for a string that starts at `start` and the bytes `out w` that the routine emits for a word `w`.
`o` is the outcome from the state `s` and `ir` the instruction word. In every clause R7 holds the saved `pc`, and
`t = { … }` is the frame: no other register (the spec's decision D17), not `pc`, no flag, no cell but those named.
The clauses meet only scans that come to `0xFE00` at most once: to come there again a scan must have found no
zero word in any cell. -/
structure PrintsString (out : Word → List Byte) (start ir : Word) (s : State)
    (o : Host.Outcome State Fault Refusal) : Prop where
  /-- A string outside `0xFE00`, and no byte fails: the bytes of its words in order, not of the zero word. -/
  ends : ∀ ws, StringAt s start ws → (∀ j < (ws.flatMap out).length, (turnAt s j).fail = false) →
    ∃ t, o = .next t ∧ t.reg .r7 = s.pc ∧ KeepsOthers s t [.r7] ∧
      t = { afterRequests s (ws.flatMap out).length (ws.flatMap out) with regs := t.regs }
  /-- The byte number `k` is the first that fails: IOError, and the bytes before it stay in `CON` (R184; R185,
  the spec's decision D10). Words enough for that byte are all it takes. -/
  fails : ∀ ws k, WordsAt s start ws → k < (ws.flatMap out).length →
    (∀ j < k, (turnAt s j).fail = false) → (turnAt s k).fail = true →
    ∃ t, o = .next t ∧ FaultedWith t (.ioError .con) ir ∧ t.reg .r7 = s.pc ∧ KeepsOthers s t [.r7] ∧
      t = { afterRequests s (k + 1) ((ws.flatMap out).take k) with
              regs := t.regs, status := t.status, faultRecord := t.faultRecord }
  /-- The words reach up to `0xFE00` and the poll there finds no key (R53 item 5): KBSR is zero, which ends the
  string, whatever that cell held. -/
  pollsEmpty : ∀ ws, WordsAt s start ws → start + BitVec.ofNat 16 ws.length = kbsrAddr →
    (∀ j < (ws.flatMap out).length, (turnAt s j).fail = false) →
    s.kbd ++ arriving s 0 ((ws.flatMap out).length + 1) = [] →
    ∃ t, o = .next t ∧ t.reg .r7 = s.pc ∧ KeepsOthers s t [.r7] ∧
      t.mem.read 0xFE00#16 = 0x0000#16 ∧ (∀ a, a ≠ 0xFE00#16 → t.mem.read a = s.mem.read a) ∧
      t = { afterRequests s ((ws.flatMap out).length + 1) (ws.flatMap out) with regs := t.regs, mem := t.mem }
  /-- The poll there finds the key `c`: KBSR is `0x8000` and its bytes are emitted, KBDR is the low byte of `c`,
  and the string goes on at `0xFE01` in the memory that holds this KBDR. -/
  pollsKey : ∀ ws ws' c rest, WordsAt s start ws → start + BitVec.ofNat 16 ws.length = kbsrAddr →
    (∀ j < (ws.flatMap out).length, (turnAt s j).fail = false) →
    s.kbd ++ arriving s 0 ((ws.flatMap out).length + 1) = c :: rest →
    StringAt (s.memWrite 0xFE02#16 (BitVec.ofNat 16 (c % 256))) 0xFE01#16 ws' →
    (∀ j < (out 0x8000#16 ++ ws'.flatMap out).length,
      (turnAt s ((ws.flatMap out).length + 1 + j)).fail = false) →
    ∃ t, o = .next t ∧ t.reg .r7 = s.pc ∧ KeepsOthers s t [.r7] ∧
      t.mem.read 0xFE00#16 = 0x8000#16 ∧ t.mem.read 0xFE02#16 = BitVec.ofNat 16 (c % 256) ∧
      (∀ a, a ≠ 0xFE00#16 → a ≠ 0xFE02#16 → t.mem.read a = s.mem.read a) ∧
      t = { afterRequests s ((ws.flatMap out).length + 1 + (out 0x8000#16 ++ ws'.flatMap out).length)
              (ws.flatMap out ++ (out 0x8000#16 ++ ws'.flatMap out)) with
              regs := t.regs, mem := t.mem,
              kbd := rest ++
                arriving s ((ws.flatMap out).length + 1) (out 0x8000#16 ++ ws'.flatMap out).length }
  /-- And the byte number `k` after that poll is the first that fails: IOError, the bytes before it stay in
  `CON`, and the poll has taken effect (R185, the spec's decision D10). -/
  pollsKeyFails : ∀ ws ws' c rest k, WordsAt s start ws → start + BitVec.ofNat 16 ws.length = kbsrAddr →
    (∀ j < (ws.flatMap out).length, (turnAt s j).fail = false) →
    s.kbd ++ arriving s 0 ((ws.flatMap out).length + 1) = c :: rest →
    WordsAt (s.memWrite 0xFE02#16 (BitVec.ofNat 16 (c % 256))) 0xFE01#16 ws' →
    k < (out 0x8000#16 ++ ws'.flatMap out).length →
    (∀ j < k, (turnAt s ((ws.flatMap out).length + 1 + j)).fail = false) →
    (turnAt s ((ws.flatMap out).length + 1 + k)).fail = true →
    ∃ t, o = .next t ∧ FaultedWith t (.ioError .con) ir ∧ t.reg .r7 = s.pc ∧ KeepsOthers s t [.r7] ∧
      t.mem.read 0xFE00#16 = 0x8000#16 ∧ t.mem.read 0xFE02#16 = BitVec.ofNat 16 (c % 256) ∧
      (∀ a, a ≠ 0xFE00#16 → a ≠ 0xFE02#16 → t.mem.read a = s.mem.read a) ∧
      t = { afterRequests s ((ws.flatMap out).length + 1 + (k + 1))
              (ws.flatMap out ++ (out 0x8000#16 ++ ws'.flatMap out).take k) with
              regs := t.regs, mem := t.mem, status := t.status, faultRecord := t.faultRecord,
              kbd := rest ++ arriving s ((ws.flatMap out).length + 1) (k + 1) }

/-! ### The opcode table -/

/-- The number of an instruction's row in spec/opcode_table.json. -/
def rowNumber : Instr → Nat
  | .addReg _ _ _ => 0
  | .addImm _ _ _ => 1
  | .andReg _ _ _ => 2
  | .andImm _ _ _ => 3
  | .not _ _ => 4
  | .br _ _ => 5
  | .jmp _ => 6
  | .jsr _ => 7
  | .jsrr _ => 8
  | .ld _ _ => 9
  | .ldi _ _ => 10
  | .ldr _ _ _ => 11
  | .lea _ _ => 12
  | .st _ _ => 13
  | .sti _ _ => 14
  | .str _ _ _ => 15
  | .trapGetc _ => 16
  | .trapOut _ => 17
  | .trapPuts _ => 18
  | .trapIn _ => 19
  | .trapPutsp _ => 20
  | .trapHalt _ => 21
  | .trapOther _ _ => 22
  | .res _ => 23
  | .undef1000 _ => 24

/-- The match and mask of each row of spec/opcode_table.json, in the table's order, in which the rows of
priority 1 stand before the one they override. -/
def opcodeTable : List (Word × Word) :=
  [(0x1000#16, 0xF020#16), (0x1020#16, 0xF020#16), (0x5000#16, 0xF020#16), (0x5020#16, 0xF020#16),
   (0x9000#16, 0xF000#16), (0x0000#16, 0xF000#16), (0xC000#16, 0xF000#16), (0x4800#16, 0xF800#16),
   (0x4000#16, 0xF800#16), (0x2000#16, 0xF000#16), (0xA000#16, 0xF000#16), (0x6000#16, 0xF000#16),
   (0xE000#16, 0xF000#16), (0x3000#16, 0xF000#16), (0xB000#16, 0xF000#16), (0x7000#16, 0xF000#16)] ++
  [(0xF020#16, 0xF0FF#16), (0xF021#16, 0xF0FF#16), (0xF022#16, 0xF0FF#16), (0xF023#16, 0xF0FF#16),
   (0xF024#16, 0xF0FF#16), (0xF025#16, 0xF0FF#16), (0xF000#16, 0xF000#16), (0xD000#16, 0xF000#16),
   (0x8000#16, 0xF000#16)]

/-- The bits of a word that its instruction tests or uses (R85): the others are the `x` bits of R87. -/
def usedBits : Instr → Word
  | .addReg _ _ _ => 0xFFE7#16
  | .addImm _ _ _ => 0xFFFF#16
  | .andReg _ _ _ => 0xFFE7#16
  | .andImm _ _ _ => 0xFFFF#16
  | .not _ _ => 0xFFC0#16
  | .br _ _ => 0xFFFF#16
  | .jmp _ => 0xF1C0#16
  | .jsr _ => 0xFFFF#16
  | .jsrr _ => 0xF9C0#16
  | .ld _ _ => 0xFFFF#16
  | .ldi _ _ => 0xFFFF#16
  | .ldr _ _ _ => 0xFFFF#16
  | .lea _ _ => 0xFFFF#16
  | .st _ _ => 0xFFFF#16
  | .sti _ _ => 0xFFFF#16
  | .str _ _ _ => 0xFFFF#16
  | .trapGetc _ => 0xF0FF#16
  | .trapOut _ => 0xF0FF#16
  | .trapPuts _ => 0xF0FF#16
  | .trapIn _ => 0xF0FF#16
  | .trapPutsp _ => 0xF0FF#16
  | .trapHalt _ => 0xF0FF#16
  | .trapOther _ _ => 0xF0FF#16
  | .res _ => 0xF000#16
  | .undef1000 _ => 0xF000#16

/-- The state with the instruction word of its fault record blanked. -/
def withoutIr (s : State) : State :=
  { s with faultRecord := s.faultRecord.map fun r => { cause := r.cause, ir := 0#16, faultPc := r.faultPc } }

/-- The same outcome but for the instruction word that a fault record holds. -/
def SameButIr : Host.Outcome State Fault Refusal → Host.Outcome State Fault Refusal → Prop
  | .next s, .next t => withoutIr s = withoutIr t
  | .fault f, .fault g => f = g
  | .refused q, .refused r => q = r
  | _, _ => False

end Sys2Proof
end

