-- ==== Sys2Proof/Certificates/Slice0/Obligations.lean ====
section
/-! DEFINITION. The statements about the model. Where a statement says the state after an instruction as
`t = { s with … := t.… }`, every field that is not named there is unchanged: that is its frame. A clause that decodes a word rests on the
encoding of 30_encoding.md, which is the spec's own decision D1; this and the other decisions D<n> named below
are those of log entry 11. -/

open Sys2Proof Sys2Proof.Machine

/-! ### Encoding -/

/-- Decoding the word of a well-formed instruction gives it back (R85, R88). -/
def Obligations.DecodeEncodeRoundTrip : Prop :=
  ∀ i : Instr, i.wf = true → decode (encode i) = i

/-- Every word decodes to a well-formed instruction, whose word agrees with it in every bit that R85 does not
mark `x` (R87, R88); the rows that can fault lose no bit at all. -/
def Obligations.EncodeDecodeKeepsUsedBits : Prop :=
  ∀ w : Word, (decode w).wf = true ∧
    encode (decode w) &&& usedBits (decode w) = w &&& usedBits (decode w) ∧
    (opcodeField w = 0b1111#4 ∨ opcodeField w = 0b1101#4 ∨ opcodeField w = 0b1000#4 → encode (decode w) = w)

/-- The decoder is the opcode table: the row a word decodes to is the first row that it matches. -/
def Obligations.DecoderFollowsTable : Prop :=
  ∀ w : Word, opcodeTable.findIdx? (fun r => w &&& r.2 == r.1) = some (rowNumber (decode w))

/-- Two words that differ only in `x` bits execute alike, but for the word in a fault record (R87, the
spec's decision D4). -/
def Obligations.IgnoredBitsHaveNoEffect : Prop :=
  ∀ (w w' : Word) (s : State), w &&& usedBits (decode w) = w' &&& usedBits (decode w) →
    SameButIr (exec (decode w) s) (exec (decode w') s)

/-- The encoded words of the worked examples of the spec decode to the instructions they stand for. -/
def Obligations.ExampleWordsDecode : Prop :=
  decode 0x12A5#16 = .addImm .r1 .r2 5#5 ∧ decode 0x5042#16 = .andReg .r0 .r1 .r2 ∧
    decode 0x03FD#16 = .br 0b001#3 0x1FD#9 ∧ decode 0x41C0#16 = .jsrr .r7 ∧
    decode 0x7A43#16 = .str .r5 .r1 3#6 ∧ decode 0xF125#16 = .trapHalt 1#4 ∧ decode 0xD000#16 = .res 0#12

/-- A 3-bit register field names the register of that index (R81). -/
def Obligations.RegisterFieldNamesRegister : Prop :=
  (∀ b : BitVec 3, (Reg.ofBits b).bits = b) ∧
    [Reg.r0, .r1, .r2, .r3, .r4, .r5, .r6, .r7].map (fun r => r.bits.toNat) = [0, 1, 2, 3, 4, 5, 6, 7]

/-! ### The cycle -/

/-- A step of a running machine fetches through the bus, increments `pc`, and executes the decoded
instruction (R217). -/
def Obligations.StepRunsDecodedInstruction : Prop :=
  ∀ s : State, s.status = .running →
    step s = exec (decode (s.memRead s.pc).1) { (s.memRead s.pc).2 with pc := s.pc + 1#16 }

/-- In a terminal status no cycle is executed (R31): the model's step leaves the state as it is (its own
choice, assumption 7). -/
def Obligations.TerminalStatusHolds : Prop :=
  ∀ s : State, s.status ≠ .running → step s = .next s

/-- Fetching at `0xFE00` polls (R54, the spec's decision D6): with a key pending the word fetched is `0x8000`, which is illegal; with
none it is `0x0000`, a no-operation (R171). -/
def Obligations.FetchAtKbsrPolls : Prop :=
  ∀ s : State, s.status = .running → s.pc = 0xFE00#16 →
    (∀ c rest, pendingInput s = c :: rest →
      ∃ t, step s = .next t ∧ FaultedWith t .illegalOpcode 0x8000#16 ∧ t.pc = 0xFE01#16 ∧
        t.mem.read 0xFE00#16 = 0x8000#16 ∧ t.mem.read 0xFE02#16 = BitVec.ofNat 16 (c % 256) ∧
        t.kbd = rest ∧ t.regs = s.regs ∧ t.cond = s.cond) ∧
    (pendingInput s = [] →
      ∃ t, step s = .next t ∧ t.status = .running ∧ t.pc = 0xFE01#16 ∧ t.mem.read 0xFE00#16 = 0x0000#16 ∧
        t.regs = s.regs ∧ t.cond = s.cond)

/-! ### Flags and sign extension -/

/-- `setcc` (R26): bit 15 set gives NEGATIVE, zero gives ZERO, anything else POSITIVE. -/
def Obligations.SetccFollowsSign : Prop :=
  ∀ (s : State) (v : Word),
    (v.getLsbD 15 = true → (s.setcc v).cond = .negative) ∧
    (v = 0#16 → (s.setcc v).cond = .zero) ∧
    (v.getLsbD 15 = false → v ≠ 0#16 → (s.setcc v).cond = .positive) ∧
    s.setcc v = { s with cond := (s.setcc v).cond }

/-- `sext_N` for the four widths (R10), and `zext_8` of a character. -/
def Obligations.SignExtensionIsExact : Prop :=
  (∀ f : BitVec 5, (sext f).toNat = if f.toNat < 2 ^ 4 then f.toNat else f.toNat + 65536 - 2 ^ 5) ∧
  (∀ f : BitVec 6, (sext f).toNat = if f.toNat < 2 ^ 5 then f.toNat else f.toNat + 65536 - 2 ^ 6) ∧
  (∀ f : BitVec 9, (sext f).toNat = if f.toNat < 2 ^ 8 then f.toNat else f.toNat + 65536 - 2 ^ 9) ∧
  (∀ f : BitVec 11, (sext f).toNat = if f.toNat < 2 ^ 10 then f.toNat else f.toNat + 65536 - 2 ^ 11) ∧
  (∀ c : Nat, (charWord c).toNat = c % 256)

/-! ### Operate instructions -/

/-- ADD, register mode (R110). That the sum wraps modulo 65536 is the spec's decision D30 (R115). -/
def Obligations.AddRegisterMode : Prop :=
  (∀ w : Word, opcodeField w = 0b0001#4 → w.getLsbD 5 = false →
    decode w = .addReg (field11to9 w) (field8to6 w) (field2to0 w)) ∧
  ∀ (dr sr1 sr2 : Reg) (s : State), ∃ t, exec (.addReg dr sr1 sr2) s = .next t ∧
    DefinesResult s t dr (BitVec.ofNat 16 (((s.reg sr1).toNat + (s.reg sr2).toNat) % 65536))

/-- ADD, immediate mode (R111). That the sum wraps modulo 65536 is the spec's decision D30 (R115). -/
def Obligations.AddImmediateMode : Prop :=
  (∀ w : Word, opcodeField w = 0b0001#4 → w.getLsbD 5 = true →
    decode w = .addImm (field11to9 w) (field8to6 w) (fieldImm5 w)) ∧
  ∀ (dr sr1 : Reg) (imm5 : BitVec 5) (s : State), ∃ t, exec (.addImm dr sr1 imm5) s = .next t ∧
    DefinesResult s t dr (BitVec.ofNat 16 (((s.reg sr1).toNat + (sext imm5).toNat) % 65536))

/-- AND, register mode (R112): each bit of the result is the conjunction of the operands' bits. -/
def Obligations.AndRegisterMode : Prop :=
  (∀ w : Word, opcodeField w = 0b0101#4 → w.getLsbD 5 = false →
    decode w = .andReg (field11to9 w) (field8to6 w) (field2to0 w)) ∧
  ∀ (dr sr1 sr2 : Reg) (s : State), ∃ t, exec (.andReg dr sr1 sr2) s = .next t ∧
    (∀ k, (t.reg dr).getLsbD k = ((s.reg sr1).getLsbD k && (s.reg sr2).getLsbD k)) ∧
    DefinesResult s t dr (t.reg dr)

/-- AND, immediate mode (R113). -/
def Obligations.AndImmediateMode : Prop :=
  (∀ w : Word, opcodeField w = 0b0101#4 → w.getLsbD 5 = true →
    decode w = .andImm (field11to9 w) (field8to6 w) (fieldImm5 w)) ∧
  ∀ (dr sr1 : Reg) (imm5 : BitVec 5) (s : State), ∃ t, exec (.andImm dr sr1 imm5) s = .next t ∧
    (∀ k, (t.reg dr).getLsbD k = ((s.reg sr1).getLsbD k && (sext imm5).getLsbD k)) ∧
    DefinesResult s t dr (t.reg dr)

/-- NOT (R114). -/
def Obligations.NotInvertsSixteenBits : Prop :=
  (∀ w : Word, opcodeField w = 0b1001#4 → decode w = .not (field11to9 w) (field8to6 w)) ∧
  ∀ (dr sr : Reg) (s : State), ∃ t, exec (.not dr sr) s = .next t ∧
    DefinesResult s t dr (BitVec.ofNat 16 (65535 - (s.reg sr).toNat))

/-! ### Control instructions -/

/-- BR (R120): taken iff the mask bit of the flag state that holds is set; it writes nothing but `pc`.
Which mask bit belongs to which state is the spec's decision D2. -/
def Obligations.BrTestsMask : Prop :=
  (∀ w : Word, opcodeField w = 0b0000#4 → decode w = .br (fieldMask w) (fieldOff9 w)) ∧
  ∀ (mask : BitVec 3) (off9 : BitVec 9) (s : State), ∃ t, exec (.br mask off9) s = .next t ∧
    ((mask.getLsbD 2 = true ∧ s.cond = .negative) ∨ (mask.getLsbD 1 = true ∧ s.cond = .zero) ∨
        (mask.getLsbD 0 = true ∧ s.cond = .positive) → t = { s with pc := s.pc + sext off9 }) ∧
    (¬((mask.getLsbD 2 = true ∧ s.cond = .negative) ∨ (mask.getLsbD 1 = true ∧ s.cond = .zero) ∨
        (mask.getLsbD 0 = true ∧ s.cond = .positive)) → t = s)

/-- JMP (R121). -/
def Obligations.JmpTakesRegister : Prop :=
  (∀ w : Word, opcodeField w = 0b1100#4 → decode w = .jmp (field8to6 w)) ∧
  ∀ (base : Reg) (s : State), exec (.jmp base) s = .next { s with pc := s.reg base }

/-- JSR (R122). -/
def Obligations.JsrSavesReturnAddress : Prop :=
  (∀ w : Word, opcodeField w = 0b0100#4 → w.getLsbD 11 = true → decode w = .jsr (fieldOff11 w)) ∧
  ∀ (off11 : BitVec 11) (s : State), ∃ t, exec (.jsr off11) s = .next t ∧
    t.reg .r7 = s.pc ∧ t.pc = s.pc + sext off11 ∧ KeepsOthers s t [.r7] ∧
    t = { s with regs := t.regs, pc := t.pc }

/-- JSRR (R123): the base register is read after R7 is written (the spec's decision D29), so JSRR R7 does not
jump. -/
def Obligations.JsrrReadsBaseAfterSave : Prop :=
  (∀ w : Word, opcodeField w = 0b0100#4 → w.getLsbD 11 = false → decode w = .jsrr (field8to6 w)) ∧
  ∀ (base : Reg) (s : State), ∃ t, exec (.jsrr base) s = .next t ∧
    t.reg .r7 = s.pc ∧ t.pc = (if base = .r7 then s.pc else s.reg base) ∧ KeepsOthers s t [.r7] ∧
    t = { s with regs := t.regs, pc := t.pc }

/-! ### Loads and stores -/

/-- LD (R130). The read and what it may change are those of `MemRead` (MemReadPollsKeyboard). -/
def Obligations.LdLoadsPcRelative : Prop :=
  (∀ w : Word, opcodeField w = 0b0010#4 → decode w = .ld (field11to9 w) (fieldOff9 w)) ∧
  ∀ (dr : Reg) (off9 : BitVec 9) (s : State), ∃ t, exec (.ld dr off9) s = .next t ∧
    DefinesResult (s.memRead (s.pc + sext off9)).2 t dr (s.memRead (s.pc + sext off9)).1

/-- LDI (R131): two sequential reads, the second at the word the first returned. -/
def Obligations.LdiLoadsIndirect : Prop :=
  (∀ w : Word, opcodeField w = 0b1010#4 → decode w = .ldi (field11to9 w) (fieldOff9 w)) ∧
  ∀ (dr : Reg) (off9 : BitVec 9) (s : State), ∃ t, exec (.ldi dr off9) s = .next t ∧
    DefinesResult
      ((s.memRead (s.pc + sext off9)).2.memRead (s.memRead (s.pc + sext off9)).1).2 t dr
      ((s.memRead (s.pc + sext off9)).2.memRead (s.memRead (s.pc + sext off9)).1).1

/-- LDR (R132). -/
def Obligations.LdrLoadsBaseOffset : Prop :=
  (∀ w : Word, opcodeField w = 0b0110#4 → decode w = .ldr (field11to9 w) (field8to6 w) (fieldOff6 w)) ∧
  ∀ (dr base : Reg) (off6 : BitVec 6) (s : State), ∃ t, exec (.ldr dr base off6) s = .next t ∧
    DefinesResult (s.memRead (s.reg base + sext off6)).2 t dr (s.memRead (s.reg base + sext off6)).1

/-- LEA (R133): no memory access, and the flags are set. -/
def Obligations.LeaDeliversAddress : Prop :=
  (∀ w : Word, opcodeField w = 0b1110#4 → decode w = .lea (field11to9 w) (fieldOff9 w)) ∧
  ∀ (dr : Reg) (off9 : BitVec 9) (s : State), ∃ t, exec (.lea dr off9) s = .next t ∧
    DefinesResult s t dr (BitVec.ofNat 16 ((s.pc.toNat + (sext off9).toNat) % 65536))

/-- ST (R134): one cell is written, at every address alike, and nothing else changes. -/
def Obligations.StStoresPcRelative : Prop :=
  (∀ w : Word, opcodeField w = 0b0011#4 → decode w = .st (field11to9 w) (fieldOff9 w)) ∧
  ∀ (sr : Reg) (off9 : BitVec 9) (s : State), ∃ t, exec (.st sr off9) s = .next t ∧
    t.mem.read (s.pc + sext off9) = s.reg sr ∧
    (∀ a, a ≠ s.pc + sext off9 → t.mem.read a = s.mem.read a) ∧ t = { s with mem := t.mem }

/-- STI (R135): the pointer is read through the bus, then one cell is written. -/
def Obligations.StiStoresIndirect : Prop :=
  (∀ w : Word, opcodeField w = 0b1011#4 → decode w = .sti (field11to9 w) (fieldOff9 w)) ∧
  ∀ (sr : Reg) (off9 : BitVec 9) (s : State), ∃ t, exec (.sti sr off9) s = .next t ∧
    t.mem.read (s.memRead (s.pc + sext off9)).1 = s.reg sr ∧
    (∀ a, a ≠ (s.memRead (s.pc + sext off9)).1 →
      t.mem.read a = (s.memRead (s.pc + sext off9)).2.mem.read a) ∧
    t = { (s.memRead (s.pc + sext off9)).2 with mem := t.mem }

/-- STR (R136). -/
def Obligations.StrStoresBaseOffset : Prop :=
  (∀ w : Word, opcodeField w = 0b0111#4 → decode w = .str (field11to9 w) (field8to6 w) (fieldOff6 w)) ∧
  ∀ (sr base : Reg) (off6 : BitVec 6) (s : State), ∃ t, exec (.str sr base off6) s = .next t ∧
    t.mem.read (s.reg base + sext off6) = s.reg sr ∧
    (∀ a, a ≠ s.reg base + sext off6 → t.mem.read a = s.mem.read a) ∧ t = { s with mem := t.mem }

/-! ### TRAP -/

/-- GETC (R151): the character into R0, R7 saved, no flags, no echo; a failing keyboard raises IOError with
R0 unchanged (no retry: the spec's decision D12). -/
def Obligations.GetcReadsCharacter : Prop :=
  (∀ w : Word, opcodeField w = 0b1111#4 → fieldVect w = 0x20#8 → decode w = .trapGetc (fieldIgn4 w)) ∧
  (∀ (ign : BitVec 4) (s : State) (c : Nat) (rest : List Nat),
    s.turn.fail = false → pendingInput s = c :: rest →
    ∃ t, exec (.trapGetc ign) s = .next t ∧ t.reg .r0 = BitVec.ofNat 16 (c % 256) ∧ t.reg .r7 = s.pc ∧
      KeepsOthers s t [.r0, .r7] ∧ t = { s with regs := t.regs, kbd := rest, turns := s.turns.tail }) ∧
  (∀ (ign : BitVec 4) (s : State), s.turn.fail = true →
    ∃ t, exec (.trapGetc ign) s = .next t ∧ FaultedWith t (.ioError .kbd) (encode (.trapGetc ign)) ∧
      t.reg .r7 = s.pc ∧ KeepsOthers s t [.r7] ∧
      t = { s with regs := t.regs, kbd := pendingInput s, turns := s.turns.tail, status := t.status,
                   faultRecord := t.faultRecord })

/-- OUT (R152): one byte, the low byte of R0; a failing console raises IOError with `CON` unchanged
(R184, no retry: the spec's decision D12; R185, decision D10). -/
def Obligations.OutEmitsLowByte : Prop :=
  (∀ w : Word, opcodeField w = 0b1111#4 → fieldVect w = 0x21#8 → decode w = .trapOut (fieldIgn4 w)) ∧
  (∀ (ign : BitVec 4) (s : State), s.turn.fail = false →
    ∃ t, exec (.trapOut ign) s = .next t ∧ t.con = s.con ++ [BitVec.ofNat 8 ((s.reg .r0).toNat % 256)] ∧
      t.reg .r7 = s.pc ∧ KeepsOthers s t [.r7] ∧
      t = { s with regs := t.regs, con := t.con, kbd := pendingInput s, turns := s.turns.tail }) ∧
  (∀ (ign : BitVec 4) (s : State), s.turn.fail = true →
    ∃ t, exec (.trapOut ign) s = .next t ∧ FaultedWith t (.ioError .con) (encode (.trapOut ign)) ∧
      t.reg .r7 = s.pc ∧ KeepsOthers s t [.r7] ∧
      t = { s with regs := t.regs, kbd := pendingInput s, turns := s.turns.tail, status := t.status,
                   faultRecord := t.faultRecord })

/-- PUTS (R153): the low byte of each word, the zero word not; R0 is not advanced (the spec's decision D17); on a
console that works, one that fails part-way (R184, decision D12; R185, decision D10), and a scan that polls at `0xFE00` (decision
D16), where the word `0x8000` of a key emits the byte `0x00`. -/
def Obligations.PutsPrintsString : Prop :=
  (∀ w : Word, opcodeField w = 0b1111#4 → fieldVect w = 0x22#8 → decode w = .trapPuts (fieldIgn4 w)) ∧
  ∀ (ign : BitVec 4) (s : State),
    PrintsString (fun w => [BitVec.ofNat 8 (w.toNat % 256)]) (s.reg .r0) (encode (.trapPuts ign)) s
      (exec (.trapPuts ign) s)

/-- PUTSP (R155), for both values of `PUTSP_BASE` (assumption 4): the low byte of each word, then the high byte if it
is not zero; no register but R7 changes (the spec's decision D17); with the same clauses and decisions as PUTS, the word
`0x8000`
of a key emitting `0x00` and `0x80`. -/
def Obligations.PutspPrintsPackedString : Prop :=
  (∀ w : Word, opcodeField w = 0b1111#4 → fieldVect w = 0x24#8 → decode w = .trapPutsp (fieldIgn4 w)) ∧
  ∀ (ign : BitVec 4) (s : State) (start : Word),
    (s.config.putspBase = .fixedZero → start = 0#16) → (s.config.putspBase = .fromR0 → start = s.reg .r0) →
    PrintsString
      (fun w => if w.toNat / 256 = 0 then [BitVec.ofNat 8 (w.toNat % 256)]
        else [BitVec.ofNat 8 (w.toNat % 256), BitVec.ofNat 8 (w.toNat / 256)])
      start (encode (.trapPutsp ign)) s (exec (.trapPutsp ign) s)

/-- IN (R154): GETC with echo and flags. If the keyboard fails R0 is unchanged; if the echo fails R0 is
written and the flags are not (R185, the spec's decision D10). There is no retry (decision D12) and no
prompt (decision D19). -/
def Obligations.InReadsEchoesAndSetsFlags : Prop :=
  (∀ w : Word, opcodeField w = 0b1111#4 → fieldVect w = 0x23#8 → decode w = .trapIn (fieldIgn4 w)) ∧
  (∀ (ign : BitVec 4) (s : State) (c : Nat) (rest : List Nat),
    s.turn.fail = false → pendingInput s = c :: rest → s.arrive.turn.fail = false →
    ∃ t, exec (.trapIn ign) s = .next t ∧ t.reg .r0 = BitVec.ofNat 16 (c % 256) ∧ t.reg .r7 = s.pc ∧
      KeepsOthers s t [.r0, .r7] ∧ t.con = s.con ++ [BitVec.ofNat 8 (c % 256)] ∧
      t.cond = (if c % 256 = 0 then .zero else .positive) ∧
      t = { s with regs := t.regs, con := t.con, cond := t.cond, kbd := rest ++ s.arrive.turn.keys,
                   turns := s.turns.tail.tail }) ∧
  (∀ (ign : BitVec 4) (s : State) (c : Nat) (rest : List Nat),
    s.turn.fail = false → pendingInput s = c :: rest → s.arrive.turn.fail = true →
    ∃ t, exec (.trapIn ign) s = .next t ∧ FaultedWith t (.ioError .con) (encode (.trapIn ign)) ∧
      t.reg .r0 = BitVec.ofNat 16 (c % 256) ∧ t.reg .r7 = s.pc ∧ KeepsOthers s t [.r0, .r7] ∧
      t = { s with regs := t.regs, kbd := rest ++ s.arrive.turn.keys, turns := s.turns.tail.tail,
                   status := t.status, faultRecord := t.faultRecord }) ∧
  (∀ (ign : BitVec 4) (s : State), s.turn.fail = true →
    ∃ t, exec (.trapIn ign) s = .next t ∧ FaultedWith t (.ioError .kbd) (encode (.trapIn ign)) ∧
      t.reg .r7 = s.pc ∧ KeepsOthers s t [.r7] ∧
      t = { s with regs := t.regs, kbd := pendingInput s, turns := s.turns.tail, status := t.status,
                   faultRecord := t.faultRecord })

/-- HALT (R156): the status and R7, nothing else; that `CON` gets no message is the spec's decision D19. -/
def Obligations.HaltEndsRun : Prop :=
  (∀ w : Word, opcodeField w = 0b1111#4 → fieldVect w = 0x25#8 → decode w = .trapHalt (fieldIgn4 w)) ∧
  ∀ (ign : BitVec 4) (s : State), ∃ t, exec (.trapHalt ign) s = .next t ∧ t.status = .halted ∧
    t.reg .r7 = s.pc ∧ KeepsOthers s t [.r7] ∧ t = { s with regs := t.regs, status := t.status }

/-- TRAP with an undefined vector (R157): R7 is saved, then InvalidTrapVector is raised (in this order by the
spec's decision D11). -/
def Obligations.UndefinedVectorFaults : Prop :=
  (∀ w : Word, opcodeField w = 0b1111#4 → ((fieldVect w).toNat < 0x20 ∨ 0x25 < (fieldVect w).toNat) →
    decode w = .trapOther (fieldIgn4 w) (fieldVect w)) ∧
  ∀ (ign : BitVec 4) (vect : BitVec 8) (s : State), ∃ t, exec (.trapOther ign vect) s = .next t ∧
    FaultedWith t .invalidTrapVector (encode (.trapOther ign vect)) ∧ t.reg .r7 = s.pc ∧
    KeepsOthers s t [.r7] ∧
    t = { s with regs := t.regs, status := t.status, faultRecord := t.faultRecord }

/-! ### Illegal opcodes -/

/-- RES (R170): IllegalOpcode with opcode 13; nothing else changes. -/
def Obligations.ReservedOpcodeFaults : Prop :=
  (∀ w : Word, opcodeField w = 0b1101#4 → decode w = .res (fieldIgn12 w)) ∧
  ∀ (ign : BitVec 12) (s : State), ∃ t r, exec (.res ign) s = .next t ∧ t.status = .faulted ∧
    t.faultRecord = some r ∧ r.cause = .illegalOpcode ∧ r.ir = encode (.res ign) ∧ r.opcode = 13#4 ∧
    r.faultPc = s.pc ∧ r.faultAddr = s.pc - 1#16 ∧
    t = { s with status := t.status, faultRecord := t.faultRecord }

/-- Opcode `1000` (R171): the same with opcode 8 (the spec's decision D5). -/
def Obligations.UndefinedOpcodeFaults : Prop :=
  (∀ w : Word, opcodeField w = 0b1000#4 → decode w = .undef1000 (fieldIgn12 w)) ∧
  ∀ (ign : BitVec 12) (s : State), ∃ t r, exec (.undef1000 ign) s = .next t ∧ t.status = .faulted ∧
    t.faultRecord = some r ∧ r.cause = .illegalOpcode ∧ r.ir = encode (.undef1000 ign) ∧ r.opcode = 8#4 ∧
    r.faultPc = s.pc ∧ r.faultAddr = s.pc - 1#16 ∧
    t = { s with status := t.status, faultRecord := t.faultRecord }

/-! ### Blocking and string scans -/

/-- A GETC or IN that finds no character leaves every field of CORE as it was before the step: only the
environment moves on (R158; that this is a step of its own is the model's choice, assumption 8). -/
def Obligations.GetcAndInWait : Prop :=
  ∀ s : State, s.status = .running → Waits (decode s.fetch.1) s.fetch.2 →
    ∃ t, step s = .next t ∧ t = { s with kbd := [], turns := s.turns.tail }

/-- PUTS and PUTSP end on every memory when no key arrives after the planned turns, by the zero word with the
status as it was or by the IOError of a failing console; if the console never fails, by the zero word (R67, R153,
R155, R184). An endless scan needs an endless supply of keys. -/
def Obligations.ScansEndOnFiniteInput : Prop :=
  ∀ (ign : BitVec 4) (i : Instr) (s : State), i = .trapPuts ign ∨ i = .trapPutsp ign → s.lastTurn.keys = [] →
    ∃ t, exec i s = .next t ∧
      ((t.status = s.status ∧ t.faultRecord = s.faultRecord) ∨
        (¬NeverFails s ∧ FaultedWith t (.ioError .con) (encode i)))

/-- A scan can be endless only if every ordinary cell is non-zero (R67). The spec's hang is the model's fault
scanNeverEnds (assumption 6). -/
def Obligations.EndlessScanNeedsFullMemory : Prop :=
  ∀ (ign : BitVec 4) (s : State),
    exec (.trapPuts ign) s = .fault .scanNeverEnds ∨ exec (.trapPutsp ign) s = .fault .scanNeverEnds →
    ∀ a : Word, a ≠ 0xFE00#16 → a ≠ 0xFE02#16 → s.mem.read a ≠ 0#16

/-- And it is endless when every cell is non-zero, a key with a non-zero low byte is always pending, and the
console never fails (R67: the instruction never completes). That the model answers such a scan by the fault
scanNeverEnds, after a bound, is its own way of saying so (assumption 6). -/
def Obligations.ScanOfFullMemoryIsEndless : Prop :=
  ∀ (ign : BitVec 4) (s : State), (∀ a : Word, s.mem.read a ≠ 0#16) → s.turns = [] →
    s.lastTurn.fail = false → s.lastTurn.keys ≠ [] → (∀ c ∈ s.kbd ++ s.lastTurn.keys, c % 256 ≠ 0) →
    exec (.trapPuts ign) s = .fault .scanNeverEnds ∧ exec (.trapPutsp ign) s = .fault .scanNeverEnds

/-! ### Memory and the keyboard registers -/

/-- `MemRead` (R52): a read of `0xFE00` polls first, every other read is plain. That the poll takes the character
and overwrites whole cells is the spec's decisions D7 and D8. -/
def Obligations.MemReadPollsKeyboard : Prop :=
  (∀ (s : State) (a : Word), a ≠ 0xFE00#16 → s.memRead a = (s.mem.read a, s)) ∧
  (∀ (s : State) (c : Nat) (rest : List Nat), pendingInput s = c :: rest →
    ∃ t, s.memRead 0xFE00#16 = (0x8000#16, t) ∧ t.mem.read 0xFE00#16 = 0x8000#16 ∧
      t.mem.read 0xFE02#16 = BitVec.ofNat 16 (c % 256) ∧
      (∀ a, a ≠ 0xFE00#16 → a ≠ 0xFE02#16 → t.mem.read a = s.mem.read a) ∧
      t = { s with mem := t.mem, kbd := rest, turns := s.turns.tail }) ∧
  (∀ s : State, pendingInput s = [] →
    ∃ t, s.memRead 0xFE00#16 = (0x0000#16, t) ∧ t.mem.read 0xFE00#16 = 0x0000#16 ∧
      (∀ a, a ≠ 0xFE00#16 → t.mem.read a = s.mem.read a) ∧
      t = { s with mem := t.mem, kbd := [], turns := s.turns.tail })

/-- Two reads of KBSR with two characters pending both report ready and the first character is lost; with
one pending the second read reports none and KBDR keeps the character (R53 items 1 to 3). -/
def Obligations.SecondKbsrReadReportsNextKey : Prop :=
  ∀ (s : State) (c : Nat) (rest : List Nat), s.kbd = c :: rest → s.turns = [] → s.lastTurn.keys = [] →
    ∃ t u, s.memRead 0xFE00#16 = (0x8000#16, t) ∧ t.memRead 0xFE02#16 = (BitVec.ofNat 16 (c % 256), t) ∧
      (∀ d rest', rest = d :: rest' → t.memRead 0xFE00#16 = (0x8000#16, u) ∧
        u.memRead 0xFE02#16 = (BitVec.ofNat 16 (d % 256), u) ∧ u.kbd = rest') ∧
      (rest = [] → t.memRead 0xFE00#16 = (0x0000#16, u) ∧
        u.memRead 0xFE02#16 = (BitVec.ofNat 16 (c % 256), u) ∧ u.kbd = [])

/-- `MemWrite` stores the word at its address and does nothing else, KBSR and KBDR included (R55). -/
def Obligations.MemWriteIsPlain : Prop :=
  ∀ (s : State) (a v : Word), (s.memWrite a v).mem.read a = v ∧
    (∀ b, b ≠ a → (s.memWrite a v).mem.read b = s.mem.read b) ∧
    s.memWrite a v = { s with mem := (s.memWrite a v).mem }

/-! ### Rules about every instruction -/

/-- No instruction writes a register that R21 does not give it. -/
def Obligations.OnlyListedRegistersChange : Prop :=
  ∀ (i : Instr) (s t : State), exec i s = .next t → KeepsOthers s t (writesRegs i)

/-- Only ADD, AND, NOT, LD, LDI, LDR, LEA and IN change the flags (R27). -/
def Obligations.OnlyListedInstructionsSetFlags : Prop :=
  ∀ (i : Instr) (s t : State), exec i s = .next t → setsCond i = false → t.cond = s.cond

/-- Where each instruction leaves `pc` (R24); a waiting GETC or IN has not ended its cycle and goes back to its
own address (R158). -/
def Obligations.PcAfterEachInstruction : Prop :=
  ∀ (i : Instr) (s t : State), exec i s = .next t →
    (¬Waits i s → t.pc = pcAfter i s) ∧ (Waits i s → t.pc = s.pc - 1#16)

/-- Memory changes only at the address of a store and, by the intercept, at KBSR and KBDR (R55, R61). -/
def Obligations.MemoryChangesOnlyByStores : Prop :=
  ∀ (i : Instr) (s t : State) (a : Word), exec i s = .next t → a ≠ 0xFE00#16 → a ≠ 0xFE02#16 →
    (∀ v, storeOf i s ≠ some (a, v)) → t.mem.read a = s.mem.read a

/-- The console output only grows (R36). -/
def Obligations.ConsoleOnlyGrows : Prop :=
  ∀ (i : Instr) (s t : State), exec i s = .next t → s.con <+: t.con

/-- HALTED is reached only by executing TRAP `0x25` (R31, R156). -/
def Obligations.OnlyHaltHalts : Prop :=
  ∀ s t : State, s.status = .running → step s = .next t → t.status = .halted →
    opcodeField s.fetch.1 = 0b1111#4 ∧ fieldVect s.fetch.1 = 0x25#8

/-- The complete list of fatal conditions (R180), each with its record: the word fetched, and the address
after the one it was fetched from (R32). -/
def Obligations.OnlyListedConditionsFault : Prop :=
  ∀ s t : State, s.status = .running → step s = .next t → t.status = .faulted →
    ∃ r, t.faultRecord = some r ∧ r.ir = s.fetch.1 ∧ r.faultPc = s.pc + 1#16 ∧ r.faultAddr = s.pc ∧
      ((r.cause = .illegalOpcode ∧ (r.opcode = 8#4 ∨ r.opcode = 13#4)) ∨
       (r.cause = .invalidTrapVector ∧ r.opcode = 15#4 ∧ (r.vector.toNat < 0x20 ∨ 0x25 < r.vector.toNat)) ∨
       (r.cause = .ioError .kbd ∧ r.opcode = 15#4 ∧ (r.vector = 0x20#8 ∨ r.vector = 0x23#8)) ∨
       (r.cause = .ioError .con ∧ r.opcode = 15#4 ∧ 0x21 ≤ r.vector.toNat ∧ r.vector.toNat ≤ 0x24))

/-- Every instruction runs in every state: it answers a next state, but for a PUTS or PUTSP whose scan never
ends (R67, R88, R137). In this the model's own choices are that a waiting GETC or IN has a next state (assumption 8),
that an endless scan is the fault scanNeverEnds (assumption 6), and that a fatal condition is a next state
(assumption 10). -/
def Obligations.EveryInstructionRuns : Prop :=
  ∀ (i : Instr) (s : State), (∃ t, exec i s = .next t) ∨
    (exec i s = .fault .scanNeverEnds ∧ ∃ ign, i = .trapPuts ign ∨ i = .trapPutsp ign)

/-- An instruction that uses neither keyboard nor console does the same whatever the environment holds and
does, and leaves it alone (R218). -/
def Obligations.KeyboardFreeInstructionsIgnoreInput : Prop :=
  ∀ (i : Instr) (s t : State) (kbd : List Nat) (turns : List Turn) (lastTurn : Turn), KeyboardFree i s →
    exec i s = .next t →
    exec i (withEnv s kbd turns lastTurn) = .next (withEnv t kbd turns lastTurn) ∧
      t = withEnv t s.kbd s.turns s.lastTurn

/-- A store is seen by the very next fetch (R64), at every address but `0xFE00`, which a fetch overwrites. -/
def Obligations.NextFetchSeesStore : Prop :=
  ∀ (i : Instr) (s t : State) (a v : Word), storeOf i s = some (a, v) → exec i s = .next t →
    t.pc = a → a ≠ 0xFE00#16 → t.fetch.1 = v

/-! ### Invariant, reset and load -/

/-- Every step keeps the invariant. -/
def Obligations.StepKeepsInvariant : Prop :=
  ∀ s t : State, Inv s → step s = .next t → Inv t

/-- The state after reset meets the invariant. -/
def Obligations.ResetMeetsInvariant : Prop := Inv State.reset

/-- Every state that a booted machine reaches meets the invariant: StepKeepsInvariant, from an invariant start. -/
def Obligations.BootedRunsKeepInvariant : Prop :=
  ∀ (cfg : Config) (kbd : List Nat) (turns : List Turn) (lastTurn : Turn) (bytes : List Byte) (s t : State)
    (k : Nat), boot cfg kbd turns lastTurn bytes = .ok s → Reaches k s t → Inv t

/-- The model's reset state. The spec gives the zero registers and cells, the empty record and the empty `CON` (R40).
The rest are the model's choices where the spec leaves a parameter: `cond` is the default ZERO of `RESET_COND` (the
spec's decision D3, assumption 4), the status is RUNNING before any `Run()` and the origin is 0 (assumption 2), and
no input is pending (assumption 3). -/
def Obligations.ResetStateValues : Prop :=
  (∀ r, State.reset.reg r = 0#16) ∧ State.reset.pc = 0#16 ∧ State.reset.cond = .zero ∧
    (∀ a, State.reset.mem.read a = 0#16) ∧ State.reset.status = .running ∧
    State.reset.faultRecord = none ∧ State.reset.con = [] ∧ State.reset.kbd = []

/-- The state after reset, load and run, for every image and every parameter value (R40). The default
of `RESET_COND` is the spec's decision D3 (assumption 4). -/
def Obligations.BootedStateValues : Prop :=
  ∀ (cfg : Config) (kbd : List Nat) (turns : List Turn) (lastTurn : Turn) (bytes : List Byte) (img : Image)
    (s : State), parseImage bytes = .ok img → boot cfg kbd turns lastTurn bytes = .ok s →
    (∀ r, s.reg r = 0#16) ∧ s.pc = img.origin ∧ s.cond = cfg.resetCond ∧ Config.standard.resetCond = .zero ∧
    (∀ (k : Nat) (h : k < img.words.length), s.mem.read (img.origin + BitVec.ofNat 16 k) = img.words[k]) ∧
    (∀ a : Word, (∀ k, k < img.words.length → a ≠ img.origin + BitVec.ofNat 16 k) → s.mem.read a = 0#16) ∧
    s.status = .running ∧ s.faultRecord = none ∧ s.con = [] ∧ s.kbd = kbd

/-- The image format (R212): big-endian pairs, the first of them the origin. -/
def Obligations.ImageFormatIsBigEndian : Prop :=
  ∀ (bytes : List Byte) (img : Image), parseImage bytes = .ok img →
    bytes.length = 2 * img.words.length + 2 ∧
    (∀ b0 b1, bytes[0]? = some b0 → bytes[1]? = some b1 → img.origin.toNat = b0.toNat * 256 + b1.toNat) ∧
    (∀ (k : Nat) (h : k < img.words.length) (b0 b1 : Byte), bytes[2 * k + 2]? = some b0 →
      bytes[2 * k + 3]? = some b1 → (img.words[k]).toNat = b0.toNat * 256 + b1.toNat)

/-- Which byte sequences are refused as load errors: no whole header, an odd payload, or more words than there are
cells from the origin on. The overflow is the source's rule (R212, R213 item 1); the other cases, and that an empty
payload and an image over KBSR or KBDR are accepted, are the spec's decision D20 (R213 items 2 to 4). -/
def Obligations.LoadRefusesOnlyBadImages : Prop :=
  ∀ (cfg : Config) (kbd : List Nat) (turns : List Turn) (lastTurn : Turn) (bytes : List Byte),
    (∃ s, boot cfg kbd turns lastTurn bytes = .ok s) ↔
      (2 ≤ bytes.length ∧ bytes.length % 2 = 0 ∧
        ∀ b0 b1, bytes[0]? = some b0 → bytes[1]? = some b1 →
          b0.toNat * 256 + b1.toNat + (bytes.length - 2) / 2 ≤ 65536)
end

