-- ==== Sys2Proof/Laws/Decode.lean ====
section
/-! SUPPORT. Register fields and bit fields: the small lemmas that decoding and encoding are reasoned with. -/

namespace Sys2Proof

@[simp] theorem Reg.ofBits_bits (r : Reg) : Reg.ofBits r.bits = r := by cases r <;> rfl

@[simp] theorem Reg.bits_ofBits (b : BitVec 3) : (Reg.ofBits b).bits = b := by revert b; decide

/-- A field of a word is `b` when its bits are. -/
theorem extractLsb'_eq_of_bits {n k l : Nat} {w : BitVec n} {b : BitVec k}
    (h : ∀ i, i < k → w.getLsbD (l + i) = b.getLsbD i) : w.extractLsb' l k = b := by
  refine BitVec.eq_of_getLsbD_eq fun i hi => ?_
  simp [hi, h]

/-- The four bits that `decode` tests, from the opcode field. -/
theorem bits_of_opcodeField {w : Word} {x : BitVec 4} (h : opcodeField w = x) :
    w.getLsbD 15 = x.getLsbD 3 ∧ w.getLsbD 14 = x.getLsbD 2 ∧
      w.getLsbD 13 = x.getLsbD 1 ∧ w.getLsbD 12 = x.getLsbD 0 := by
  subst h; simp [opcodeField]

/-- A defined vector is one of the six. -/
theorem definedVector_iff (v : BitVec 8) :
    definedVector v = true ↔
      v = 0x20#8 ∨ v = 0x21#8 ∨ v = 0x22#8 ∨ v = 0x23#8 ∨ v = 0x24#8 ∨ v = 0x25#8 := by
  revert v; decide

end Sys2Proof
end

