-- ==== Sys2Proof/Laws/Memory.lean ====
section
/-! SUPPORT. Memory: read after write, and the canonical form: every write keeps it, and it makes equal
contents equal data. -/

namespace Sys2Proof.Machine

theorem Memory.wfFrom_cons {lo k : Nat} {v : Word} {rest : Memory} :
    Memory.wfFrom lo ((k, v) :: rest) = true ↔
      lo ≤ k ∧ k < 65536 ∧ v ≠ 0#16 ∧ Memory.wfFrom (k + 1) rest = true := by
  simp [Memory.wfFrom, and_assoc]

theorem Memory.wfFrom_mono {lo lo' : Nat} {m : Memory} (h : lo' ≤ lo) (w : Memory.wfFrom lo m = true) :
    Memory.wfFrom lo' m = true := by
  cases m with
  | nil => rfl
  | cons c rest =>
    obtain ⟨k, v⟩ := c
    obtain ⟨h1, h2⟩ := Memory.wfFrom_cons.1 w
    exact Memory.wfFrom_cons.2 ⟨Nat.le_trans h h1, h2⟩

/-- Nothing is listed below the start of a canonical list. -/
theorem Memory.lookup_below {lo a : Nat} {m : Memory} (w : Memory.wfFrom lo m = true) (h : a < lo) :
    Memory.lookup a m = 0#16 := by
  induction m generalizing lo with
  | nil => rfl
  | cons c rest ih =>
    obtain ⟨k, v⟩ := c
    obtain ⟨h1, -, -, h4⟩ := Memory.wfFrom_cons.1 w
    have hk : k ≠ a := by omega
    simp only [Memory.lookup, hk, if_false]
    exact ih h4 (by omega)

theorem Memory.lookup_insert (a b : Nat) (v : Word) (m : Memory) :
    Memory.lookup b (Memory.insert a v m) = if b = a then v else Memory.lookup b m := by
  induction m with
  | nil => simp [Memory.insert, Memory.lookup, eq_comm]
  | cons c rest ih =>
    obtain ⟨k, w⟩ := c
    simp only [Memory.insert]
    by_cases h1 : a < k
    · simp only [h1, if_true, Memory.lookup]
      by_cases h2 : a = b
      · simp [h2]
      · simp [h2, Ne.symm h2]
    · by_cases h2 : a = k
      · subst h2
        simp only [lt_irrefl, if_false, if_true, Memory.lookup]
        by_cases h3 : a = b
        · simp [h3]
        · simp [h3, Ne.symm h3]
      · simp only [h1, h2, if_false, Memory.lookup, ih]
        by_cases h3 : k = b
        · subst h3; simp [Ne.symm h2]
        · simp [h3]

theorem Memory.lookup_erase (a b : Nat) (m : Memory) :
    Memory.lookup b (Memory.erase a m) = if b = a then 0#16 else Memory.lookup b m := by
  induction m with
  | nil => simp [Memory.erase, Memory.lookup]
  | cons c rest ih =>
    obtain ⟨k, v⟩ := c
    simp only [Memory.erase]
    by_cases h1 : k = a
    · subst h1
      simp only [if_true, ih, Memory.lookup]
      by_cases h2 : b = k
      · simp [h2]
      · simp [h2, Ne.symm h2]
    · simp only [h1, if_false, Memory.lookup, ih]
      by_cases h2 : k = b
      · subst h2; simp [h1]
      · simp [h2]

theorem Memory.insert_wfFrom {lo a : Nat} {v : Word} {m : Memory} (hlo : lo ≤ a) (ha : a < 65536)
    (hv : v ≠ 0#16) (w : Memory.wfFrom lo m = true) : Memory.wfFrom lo (Memory.insert a v m) = true := by
  induction m generalizing lo with
  | nil => exact Memory.wfFrom_cons.2 ⟨hlo, ha, hv, rfl⟩
  | cons c rest ih =>
    obtain ⟨k, u⟩ := c
    obtain ⟨h1, h2, h3, h4⟩ := Memory.wfFrom_cons.1 w
    simp only [Memory.insert]
    split
    · exact Memory.wfFrom_cons.2 ⟨hlo, ha, hv, Memory.wfFrom_cons.2 ⟨by omega, h2, h3, h4⟩⟩
    · split
      · next h => subst h; exact Memory.wfFrom_cons.2 ⟨hlo, ha, hv, h4⟩
      · exact Memory.wfFrom_cons.2 ⟨h1, h2, h3, ih (by omega) h4⟩

theorem Memory.erase_wfFrom {lo a : Nat} {m : Memory} (w : Memory.wfFrom lo m = true) :
    Memory.wfFrom lo (Memory.erase a m) = true := by
  induction m generalizing lo with
  | nil => rfl
  | cons c rest ih =>
    obtain ⟨k, u⟩ := c
    obtain ⟨h1, h2, h3, h4⟩ := Memory.wfFrom_cons.1 w
    simp only [Memory.erase]
    split
    · exact Memory.wfFrom_mono (by omega) (ih h4)
    · exact Memory.wfFrom_cons.2 ⟨h1, h2, h3, ih h4⟩

/-- A write keeps the canonical form. -/
theorem Memory.write_wf {m : Memory} (a v : Word) (w : m.wf = true) : (m.write a v).wf = true := by
  unfold Memory.write
  split
  · exact Memory.erase_wfFrom w
  · next h => exact Memory.insert_wfFrom (Nat.zero_le _) a.isLt h w

/-- A read after a write gives the value written at that address and what was there elsewhere. -/
theorem Memory.read_write (m : Memory) (a b v : Word) :
    (m.write a v).read b = if b = a then v else m.read b := by
  unfold Memory.write Memory.read
  split
  · next h => rw [Memory.lookup_erase]; simp [BitVec.toNat_inj, h]
  · rw [Memory.lookup_insert]; simp [BitVec.toNat_inj]

@[simp] theorem Memory.read_write_same (m : Memory) (a v : Word) : (m.write a v).read a = v := by
  rw [Memory.read_write, if_pos rfl]

/-- A write leaves every other address alone. -/
theorem Memory.read_write_other (m : Memory) {a b : Word} (v : Word) (h : b ≠ a) :
    (m.write a v).read b = m.read b := by
  rw [Memory.read_write, if_neg h]

/-- Two canonical memories with the same contents are the same list. -/
theorem Memory.ext_of_wfFrom {lo : Nat} {m n : Memory} (hm : Memory.wfFrom lo m = true)
    (hn : Memory.wfFrom lo n = true) (h : ∀ a, Memory.lookup a m = Memory.lookup a n) : m = n := by
  induction m generalizing lo n with
  | nil =>
    cases n with
    | nil => rfl
    | cons c rest =>
      obtain ⟨k, v⟩ := c
      obtain ⟨-, -, h3, -⟩ := Memory.wfFrom_cons.1 hn
      exact absurd (by simpa [Memory.lookup] using (h k).symm) h3
  | cons c rest ih =>
    obtain ⟨k, v⟩ := c
    obtain ⟨m1, m2, m3, m4⟩ := Memory.wfFrom_cons.1 hm
    cases n with
    | nil => exact absurd (by simpa [Memory.lookup] using h k) m3
    | cons d rest' =>
      obtain ⟨k', v'⟩ := d
      obtain ⟨n1, n2, n3, n4⟩ := Memory.wfFrom_cons.1 hn
      have hk : k = k' := by
        rcases Nat.lt_trichotomy k k' with hlt | heq | hgt
        · have := h k
          have hz : Memory.lookup k ((k', v') :: rest') = 0#16 := by
            have : k' ≠ k := by omega
            simp only [Memory.lookup, this, if_false]
            exact Memory.lookup_below n4 (by omega)
          rw [hz] at this
          exact absurd (by simpa [Memory.lookup] using this) m3
        · exact heq
        · have := h k'
          have hz : Memory.lookup k' ((k, v) :: rest) = 0#16 := by
            have : k ≠ k' := by omega
            simp only [Memory.lookup, this, if_false]
            exact Memory.lookup_below m4 (by omega)
          rw [hz] at this
          exact absurd (by simpa [Memory.lookup] using this.symm) n3
      subst hk
      have hv : v = v' := by simpa [Memory.lookup] using h k
      subst hv
      have hr : rest = rest' := by
        refine ih m4 n4 fun a => ?_
        by_cases ha : k = a
        · subst ha
          rw [Memory.lookup_below m4 (Nat.lt_succ_self k), Memory.lookup_below n4 (Nat.lt_succ_self k)]
        · simpa [Memory.lookup, ha] using h a
      rw [hr]

/-- A canonical memory is determined by the contents of its 65536 cells. -/
theorem Memory.ext_of_wf {m n : Memory} (hm : m.wf = true) (hn : n.wf = true)
    (h : ∀ a : Word, m.read a = n.read a) : m = n := by
  have above : ∀ {p : Memory} {lo a : Nat}, Memory.wfFrom lo p = true → 65536 ≤ a → Memory.lookup a p = 0#16 := by
    intro p
    induction p with
    | nil => intros; rfl
    | cons c rest ih =>
      intro lo a w ha
      obtain ⟨k, v⟩ := c
      obtain ⟨-, h2, -, h4⟩ := Memory.wfFrom_cons.1 w
      have : k ≠ a := by omega
      simp only [Memory.lookup, this, if_false]
      exact ih h4 ha
  refine Memory.ext_of_wfFrom hm hn fun a => ?_
  by_cases ha : a < 65536
  · have := h (BitVec.ofNat 16 a)
    simpa [Memory.read, Nat.mod_eq_of_lt ha] using this
  · rw [above hm (by omega), above hn (by omega)]

end Sys2Proof.Machine
end

