-- ==== Sys2Proof/Laws/State.lean ====
section
/-! SUPPORT. What each named update of the state does to each field, and reading a register back. With these
lemmas no later proof unfolds a record update. -/

namespace Sys2Proof.Machine

/-! ### `State.setReg` -/

@[simp] theorem State.setReg_regs (s : State) (r : Reg) (v : Word) :
    (s.setReg r v).regs = s.regs.set r v := rfl
@[simp] theorem State.setReg_pc (s : State) (r : Reg) (v : Word) :
    (s.setReg r v).pc = s.pc := rfl
@[simp] theorem State.setReg_cond (s : State) (r : Reg) (v : Word) :
    (s.setReg r v).cond = s.cond := rfl
@[simp] theorem State.setReg_mem (s : State) (r : Reg) (v : Word) :
    (s.setReg r v).mem = s.mem := rfl
@[simp] theorem State.setReg_status (s : State) (r : Reg) (v : Word) :
    (s.setReg r v).status = s.status := rfl
@[simp] theorem State.setReg_faultRecord (s : State) (r : Reg) (v : Word) :
    (s.setReg r v).faultRecord = s.faultRecord := rfl
@[simp] theorem State.setReg_kbd (s : State) (r : Reg) (v : Word) :
    (s.setReg r v).kbd = s.kbd := rfl
@[simp] theorem State.setReg_con (s : State) (r : Reg) (v : Word) :
    (s.setReg r v).con = s.con := rfl
@[simp] theorem State.setReg_turns (s : State) (r : Reg) (v : Word) :
    (s.setReg r v).turns = s.turns := rfl
@[simp] theorem State.setReg_lastTurn (s : State) (r : Reg) (v : Word) :
    (s.setReg r v).lastTurn = s.lastTurn := rfl
@[simp] theorem State.setReg_config (s : State) (r : Reg) (v : Word) :
    (s.setReg r v).config = s.config := rfl

/-! ### `State.setPc` -/

@[simp] theorem State.setPc_regs (s : State) (v : Word) :
    (s.setPc v).regs = s.regs := rfl
@[simp] theorem State.setPc_pc (s : State) (v : Word) :
    (s.setPc v).pc = v := rfl
@[simp] theorem State.setPc_cond (s : State) (v : Word) :
    (s.setPc v).cond = s.cond := rfl
@[simp] theorem State.setPc_mem (s : State) (v : Word) :
    (s.setPc v).mem = s.mem := rfl
@[simp] theorem State.setPc_status (s : State) (v : Word) :
    (s.setPc v).status = s.status := rfl
@[simp] theorem State.setPc_faultRecord (s : State) (v : Word) :
    (s.setPc v).faultRecord = s.faultRecord := rfl
@[simp] theorem State.setPc_kbd (s : State) (v : Word) :
    (s.setPc v).kbd = s.kbd := rfl
@[simp] theorem State.setPc_con (s : State) (v : Word) :
    (s.setPc v).con = s.con := rfl
@[simp] theorem State.setPc_turns (s : State) (v : Word) :
    (s.setPc v).turns = s.turns := rfl
@[simp] theorem State.setPc_lastTurn (s : State) (v : Word) :
    (s.setPc v).lastTurn = s.lastTurn := rfl
@[simp] theorem State.setPc_config (s : State) (v : Word) :
    (s.setPc v).config = s.config := rfl

/-! ### `State.memWrite` -/

@[simp] theorem State.memWrite_regs (s : State) (a v : Word) :
    (s.memWrite a v).regs = s.regs := rfl
@[simp] theorem State.memWrite_pc (s : State) (a v : Word) :
    (s.memWrite a v).pc = s.pc := rfl
@[simp] theorem State.memWrite_cond (s : State) (a v : Word) :
    (s.memWrite a v).cond = s.cond := rfl
@[simp] theorem State.memWrite_mem (s : State) (a v : Word) :
    (s.memWrite a v).mem = s.mem.write a v := rfl
@[simp] theorem State.memWrite_status (s : State) (a v : Word) :
    (s.memWrite a v).status = s.status := rfl
@[simp] theorem State.memWrite_faultRecord (s : State) (a v : Word) :
    (s.memWrite a v).faultRecord = s.faultRecord := rfl
@[simp] theorem State.memWrite_kbd (s : State) (a v : Word) :
    (s.memWrite a v).kbd = s.kbd := rfl
@[simp] theorem State.memWrite_con (s : State) (a v : Word) :
    (s.memWrite a v).con = s.con := rfl
@[simp] theorem State.memWrite_turns (s : State) (a v : Word) :
    (s.memWrite a v).turns = s.turns := rfl
@[simp] theorem State.memWrite_lastTurn (s : State) (a v : Word) :
    (s.memWrite a v).lastTurn = s.lastTurn := rfl
@[simp] theorem State.memWrite_config (s : State) (a v : Word) :
    (s.memWrite a v).config = s.config := rfl

/-! ### `State.setcc` -/

@[simp] theorem State.setcc_regs (s : State) (v : Word) :
    (s.setcc v).regs = s.regs := rfl
@[simp] theorem State.setcc_pc (s : State) (v : Word) :
    (s.setcc v).pc = s.pc := rfl
@[simp] theorem State.setcc_cond (s : State) (v : Word) :
    (s.setcc v).cond = condOf v := rfl
@[simp] theorem State.setcc_mem (s : State) (v : Word) :
    (s.setcc v).mem = s.mem := rfl
@[simp] theorem State.setcc_status (s : State) (v : Word) :
    (s.setcc v).status = s.status := rfl
@[simp] theorem State.setcc_faultRecord (s : State) (v : Word) :
    (s.setcc v).faultRecord = s.faultRecord := rfl
@[simp] theorem State.setcc_kbd (s : State) (v : Word) :
    (s.setcc v).kbd = s.kbd := rfl
@[simp] theorem State.setcc_con (s : State) (v : Word) :
    (s.setcc v).con = s.con := rfl
@[simp] theorem State.setcc_turns (s : State) (v : Word) :
    (s.setcc v).turns = s.turns := rfl
@[simp] theorem State.setcc_lastTurn (s : State) (v : Word) :
    (s.setcc v).lastTurn = s.lastTurn := rfl
@[simp] theorem State.setcc_config (s : State) (v : Word) :
    (s.setcc v).config = s.config := rfl

/-! ### `State.setResult` -/

@[simp] theorem State.setResult_regs (s : State) (r : Reg) (v : Word) :
    (s.setResult r v).regs = s.regs.set r v := rfl
@[simp] theorem State.setResult_pc (s : State) (r : Reg) (v : Word) :
    (s.setResult r v).pc = s.pc := rfl
@[simp] theorem State.setResult_cond (s : State) (r : Reg) (v : Word) :
    (s.setResult r v).cond = condOf v := rfl
@[simp] theorem State.setResult_mem (s : State) (r : Reg) (v : Word) :
    (s.setResult r v).mem = s.mem := rfl
@[simp] theorem State.setResult_status (s : State) (r : Reg) (v : Word) :
    (s.setResult r v).status = s.status := rfl
@[simp] theorem State.setResult_faultRecord (s : State) (r : Reg) (v : Word) :
    (s.setResult r v).faultRecord = s.faultRecord := rfl
@[simp] theorem State.setResult_kbd (s : State) (r : Reg) (v : Word) :
    (s.setResult r v).kbd = s.kbd := rfl
@[simp] theorem State.setResult_con (s : State) (r : Reg) (v : Word) :
    (s.setResult r v).con = s.con := rfl
@[simp] theorem State.setResult_turns (s : State) (r : Reg) (v : Word) :
    (s.setResult r v).turns = s.turns := rfl
@[simp] theorem State.setResult_lastTurn (s : State) (r : Reg) (v : Word) :
    (s.setResult r v).lastTurn = s.lastTurn := rfl
@[simp] theorem State.setResult_config (s : State) (r : Reg) (v : Word) :
    (s.setResult r v).config = s.config := rfl

/-! ### `State.trapEnter` -/

@[simp] theorem State.trapEnter_regs (s : State) :
    (s.trapEnter).regs = s.regs.set .r7 s.pc := rfl
@[simp] theorem State.trapEnter_pc (s : State) :
    (s.trapEnter).pc = s.pc := rfl
@[simp] theorem State.trapEnter_cond (s : State) :
    (s.trapEnter).cond = s.cond := rfl
@[simp] theorem State.trapEnter_mem (s : State) :
    (s.trapEnter).mem = s.mem := rfl
@[simp] theorem State.trapEnter_status (s : State) :
    (s.trapEnter).status = s.status := rfl
@[simp] theorem State.trapEnter_faultRecord (s : State) :
    (s.trapEnter).faultRecord = s.faultRecord := rfl
@[simp] theorem State.trapEnter_kbd (s : State) :
    (s.trapEnter).kbd = s.kbd := rfl
@[simp] theorem State.trapEnter_con (s : State) :
    (s.trapEnter).con = s.con := rfl
@[simp] theorem State.trapEnter_turns (s : State) :
    (s.trapEnter).turns = s.turns := rfl
@[simp] theorem State.trapEnter_lastTurn (s : State) :
    (s.trapEnter).lastTurn = s.lastTurn := rfl
@[simp] theorem State.trapEnter_config (s : State) :
    (s.trapEnter).config = s.config := rfl

/-! ### `State.raise` -/

@[simp] theorem State.raise_regs (s : State) (c : Cause) (ir : Word) :
    (s.raise c ir).regs = s.regs := rfl
@[simp] theorem State.raise_pc (s : State) (c : Cause) (ir : Word) :
    (s.raise c ir).pc = s.pc := rfl
@[simp] theorem State.raise_cond (s : State) (c : Cause) (ir : Word) :
    (s.raise c ir).cond = s.cond := rfl
@[simp] theorem State.raise_mem (s : State) (c : Cause) (ir : Word) :
    (s.raise c ir).mem = s.mem := rfl
@[simp] theorem State.raise_status (s : State) (c : Cause) (ir : Word) :
    (s.raise c ir).status = .faulted := rfl
@[simp] theorem State.raise_faultRecord (s : State) (c : Cause) (ir : Word) :
    (s.raise c ir).faultRecord = some { cause := c, ir := ir, faultPc := s.pc } := rfl
@[simp] theorem State.raise_kbd (s : State) (c : Cause) (ir : Word) :
    (s.raise c ir).kbd = s.kbd := rfl
@[simp] theorem State.raise_con (s : State) (c : Cause) (ir : Word) :
    (s.raise c ir).con = s.con := rfl
@[simp] theorem State.raise_turns (s : State) (c : Cause) (ir : Word) :
    (s.raise c ir).turns = s.turns := rfl
@[simp] theorem State.raise_lastTurn (s : State) (c : Cause) (ir : Word) :
    (s.raise c ir).lastTurn = s.lastTurn := rfl
@[simp] theorem State.raise_config (s : State) (c : Cause) (ir : Word) :
    (s.raise c ir).config = s.config := rfl

/-! ### `State.halt` -/

@[simp] theorem State.halt_regs (s : State) :
    (s.halt).regs = s.regs := rfl
@[simp] theorem State.halt_pc (s : State) :
    (s.halt).pc = s.pc := rfl
@[simp] theorem State.halt_cond (s : State) :
    (s.halt).cond = s.cond := rfl
@[simp] theorem State.halt_mem (s : State) :
    (s.halt).mem = s.mem := rfl
@[simp] theorem State.halt_status (s : State) :
    (s.halt).status = .halted := rfl
@[simp] theorem State.halt_faultRecord (s : State) :
    (s.halt).faultRecord = s.faultRecord := rfl
@[simp] theorem State.halt_kbd (s : State) :
    (s.halt).kbd = s.kbd := rfl
@[simp] theorem State.halt_con (s : State) :
    (s.halt).con = s.con := rfl
@[simp] theorem State.halt_turns (s : State) :
    (s.halt).turns = s.turns := rfl
@[simp] theorem State.halt_lastTurn (s : State) :
    (s.halt).lastTurn = s.lastTurn := rfl
@[simp] theorem State.halt_config (s : State) :
    (s.halt).config = s.config := rfl

/-! ### `State.hold` -/

@[simp] theorem State.hold_regs (s : State) :
    (s.hold).regs = s.regs := rfl
@[simp] theorem State.hold_pc (s : State) :
    (s.hold).pc = s.pc - 1#16 := rfl
@[simp] theorem State.hold_cond (s : State) :
    (s.hold).cond = s.cond := rfl
@[simp] theorem State.hold_mem (s : State) :
    (s.hold).mem = s.mem := rfl
@[simp] theorem State.hold_status (s : State) :
    (s.hold).status = s.status := rfl
@[simp] theorem State.hold_faultRecord (s : State) :
    (s.hold).faultRecord = s.faultRecord := rfl
@[simp] theorem State.hold_kbd (s : State) :
    (s.hold).kbd = s.kbd := rfl
@[simp] theorem State.hold_con (s : State) :
    (s.hold).con = s.con := rfl
@[simp] theorem State.hold_turns (s : State) :
    (s.hold).turns = s.turns := rfl
@[simp] theorem State.hold_lastTurn (s : State) :
    (s.hold).lastTurn = s.lastTurn := rfl
@[simp] theorem State.hold_config (s : State) :
    (s.hold).config = s.config := rfl

/-! ### `State.arrive` -/

@[simp] theorem State.arrive_regs (s : State) :
    (s.arrive).regs = s.regs := rfl
@[simp] theorem State.arrive_pc (s : State) :
    (s.arrive).pc = s.pc := rfl
@[simp] theorem State.arrive_cond (s : State) :
    (s.arrive).cond = s.cond := rfl
@[simp] theorem State.arrive_mem (s : State) :
    (s.arrive).mem = s.mem := rfl
@[simp] theorem State.arrive_status (s : State) :
    (s.arrive).status = s.status := rfl
@[simp] theorem State.arrive_faultRecord (s : State) :
    (s.arrive).faultRecord = s.faultRecord := rfl
@[simp] theorem State.arrive_kbd (s : State) :
    (s.arrive).kbd = s.kbd ++ s.turn.keys := rfl
@[simp] theorem State.arrive_con (s : State) :
    (s.arrive).con = s.con := rfl
@[simp] theorem State.arrive_turns (s : State) :
    (s.arrive).turns = s.turns.tail := rfl
@[simp] theorem State.arrive_lastTurn (s : State) :
    (s.arrive).lastTurn = s.lastTurn := rfl
@[simp] theorem State.arrive_config (s : State) :
    (s.arrive).config = s.config := rfl

/-! ### Registers -/

/-- A register reads as it was last written. -/
@[simp] theorem RegFile.get_set_same (f : RegFile) (r : Reg) (v : Word) : (f.set r v).get r = v := by
  cases r <;> rfl

/-- A write leaves every other register alone. -/
theorem RegFile.get_set_other (f : RegFile) {r q : Reg} (v : Word) (h : q ≠ r) :
    (f.set r v).get q = f.get q := by
  cases r <;> cases q <;> first | rfl | exact absurd rfl h

theorem RegFile.get_set (f : RegFile) (r q : Reg) (v : Word) :
    (f.set r v).get q = if q = r then v else f.get q := by
  split
  · next h => subst h; simp
  · next h => exact f.get_set_other v h

/-- The register file is determined by what its registers hold. -/
theorem RegFile.ext_get {f g : RegFile} (h : ∀ r, f.get r = g.get r) : f = g := by
  cases f; cases g
  have h0 := h .r0; have h1 := h .r1; have h2 := h .r2; have h3 := h .r3
  have h4 := h .r4; have h5 := h .r5; have h6 := h .r6; have h7 := h .r7
  simp only [RegFile.get] at h0 h1 h2 h3 h4 h5 h6 h7
  simp only [h0, h1, h2, h3, h4, h5, h6, h7]

theorem State.reg_eq (s : State) (r : Reg) : s.reg r = s.regs.get r := rfl

@[simp] theorem State.setReg_reg_same (s : State) (r : Reg) (v : Word) : (s.setReg r v).reg r = v := by
  simp [State.reg]

theorem State.setReg_reg_other (s : State) {r q : Reg} (v : Word) (h : q ≠ r) :
    (s.setReg r v).reg q = s.reg q := by
  simp [State.reg, RegFile.get_set_other _ v h]

@[simp] theorem State.setResult_reg_same (s : State) (r : Reg) (v : Word) : (s.setResult r v).reg r = v := by
  simp [State.reg]

theorem State.setResult_reg_other (s : State) {r q : Reg} (v : Word) (h : q ≠ r) :
    (s.setResult r v).reg q = s.reg q := by
  simp [State.reg, RegFile.get_set_other _ v h]

end Sys2Proof.Machine
end

