-- ==== Sys2Proof/Laws/Ops.lean ====
section
/-! SUPPORT. What the shared operations can do: one relation says all that a bus read and the requests to the
environment may change, and each operation has one lemma that says it changes no more. -/

namespace Sys2Proof.Machine

/-- All that reads through the bus and requests to the environment can change: the pending input and the
planned turns in any way, `CON` by growing, memory at KBSR and KBDR. -/
structure BusStep (s t : State) : Prop where
  regs : t.regs = s.regs
  pc : t.pc = s.pc
  cond : t.cond = s.cond
  status : t.status = s.status
  faultRecord : t.faultRecord = s.faultRecord
  lastTurn : t.lastTurn = s.lastTurn
  config : t.config = s.config
  con : s.con <+: t.con
  mem : ∀ a, a ≠ kbsrAddr → a ≠ kbdrAddr → t.mem.read a = s.mem.read a
  wf : s.mem.wf = true → t.mem.wf = true

namespace BusStep

theorem refl (s : State) : BusStep s s where
  regs := rfl
  pc := rfl
  cond := rfl
  status := rfl
  faultRecord := rfl
  lastTurn := rfl
  config := rfl
  con := List.prefix_refl _
  mem := fun _ _ _ => rfl
  wf := id

theorem trans {s t u : State} (h : BusStep s t) (k : BusStep t u) : BusStep s u where
  regs := k.regs.trans h.regs
  pc := k.pc.trans h.pc
  cond := k.cond.trans h.cond
  status := k.status.trans h.status
  faultRecord := k.faultRecord.trans h.faultRecord
  lastTurn := k.lastTurn.trans h.lastTurn
  config := k.config.trans h.config
  con := h.con.trans k.con
  mem := fun a h1 h2 => (k.mem a h1 h2).trans (h.mem a h1 h2)
  wf := fun w => k.wf (h.wf w)

end BusStep

/-! ### Requests to the environment -/

theorem arrive_bus (s : State) : BusStep s s.arrive := { BusStep.refl s with }

/-- A poll with nothing pending answers `none`; otherwise it takes the oldest character (R34). -/
theorem kbdPoll_nil {s : State} (h : s.kbd ++ s.turn.keys = []) : s.kbdPoll = (none, s.arrive) := by
  unfold State.kbdPoll; rw [State.arrive_kbd, h]

theorem kbdPoll_cons {s : State} {c : Nat} {rest : List Nat} (h : s.kbd ++ s.turn.keys = c :: rest) :
    s.kbdPoll = (some c, { s.arrive with kbd := rest }) := by
  unfold State.kbdPoll; rw [State.arrive_kbd, h]

theorem kbdPoll_bus (s : State) : BusStep s s.kbdPoll.2 := by
  unfold State.kbdPoll
  split
  · exact arrive_bus s
  · exact { arrive_bus s with }

/-- The three answers of `KbdRead` (R35). -/
theorem kbdRead_fail {s : State} (h : s.turn.fail = true) : s.kbdRead = (.fail, s.arrive) := by
  unfold State.kbdRead; rw [if_pos h]

theorem kbdRead_wait {s : State} (h : s.turn.fail = false) (k : s.kbd ++ s.turn.keys = []) :
    s.kbdRead = (.wait, s.arrive) := by
  unfold State.kbdRead; rw [if_neg (by simp [h]), State.arrive_kbd, k]

theorem kbdRead_char {s : State} {c : Nat} {rest : List Nat} (h : s.turn.fail = false)
    (k : s.kbd ++ s.turn.keys = c :: rest) :
    s.kbdRead = (.char c, { s.arrive with kbd := rest }) := by
  unfold State.kbdRead; rw [if_neg (by simp [h]), State.arrive_kbd, k]

theorem kbdRead_bus (s : State) : BusStep s s.kbdRead.2 := by
  unfold State.kbdRead
  split
  · exact arrive_bus s
  · split
    · exact arrive_bus s
    · exact { arrive_bus s with }

/-- A keyboard read writes no memory and emits nothing. -/
@[simp] theorem kbdRead_mem (s : State) : s.kbdRead.2.mem = s.mem := by
  unfold State.kbdRead; split <;> [rfl; (split <;> rfl)]

@[simp] theorem kbdRead_con (s : State) : s.kbdRead.2.con = s.con := by
  unfold State.kbdRead; split <;> [rfl; (split <;> rfl)]

/-- The two answers of `ConOut` (R36). -/
theorem conOut_fail {s : State} (b : Byte) (h : s.turn.fail = true) : s.conOut b = (false, s.arrive) := by
  unfold State.conOut; rw [if_pos h]

theorem conOut_ok {s : State} (b : Byte) (h : s.turn.fail = false) :
    s.conOut b = (true, { s.arrive with con := s.con ++ [b] }) := by
  unfold State.conOut; rw [if_neg (by simp [h]), State.arrive_con]

theorem conOut_bus (s : State) (b : Byte) : BusStep s (s.conOut b).2 := by
  unfold State.conOut
  split
  · exact arrive_bus s
  · exact { arrive_bus s with con := List.prefix_append _ _ }

@[simp] theorem conOut_mem (s : State) (b : Byte) : (s.conOut b).2.mem = s.mem := by
  unfold State.conOut; split <;> rfl

theorem conOutAll_bus (s : State) (bs : List Byte) : BusStep s (s.conOutAll bs).2 := by
  induction bs generalizing s with
  | nil => exact BusStep.refl s
  | cons b bs ih =>
    have h := conOut_bus s b
    unfold State.conOutAll
    split
    · next s' e => rw [e] at h; exact h.trans (ih s')
    · next s' e => rw [e] at h; exact h

@[simp] theorem conOutAll_mem (s : State) (bs : List Byte) : (s.conOutAll bs).2.mem = s.mem := by
  induction bs generalizing s with
  | nil => rfl
  | cons b bs ih =>
    have h := conOut_mem s b
    unfold State.conOutAll
    split
    · next s' e => rw [e] at h; rw [ih s', h]
    · next s' e => rw [e] at h; exact h

/-! ### The read path -/

/-- A store keeps every field but memory, and the canonical form. -/
theorem memWrite_wf {s : State} (a v : Word) (w : s.mem.wf = true) : (s.memWrite a v).mem.wf = true :=
  Memory.write_wf a v w

theorem latchPoll_bus (s : State) : BusStep s s.latchPoll := by
  have h := kbdPoll_bus s
  unfold State.latchPoll
  split
  · next c s' e =>
    rw [e] at h
    refine h.trans { BusStep.refl s' with mem := fun a h1 h2 => ?_, wf := fun w => ?_ }
    · simp [Memory.read_write_other _ _ h1, Memory.read_write_other _ _ h2]
    · exact memWrite_wf _ _ (memWrite_wf _ _ w)
  · next s' e =>
    rw [e] at h
    refine h.trans { BusStep.refl s' with mem := fun a h1 _ => ?_, wf := fun w => memWrite_wf _ _ w }
    simp [Memory.read_write_other _ _ h1]

/-- A read of any address but `0xFE00` returns the cell and changes nothing (R52). -/
theorem memRead_plain {s : State} {a : Word} (h : a ≠ kbsrAddr) : s.memRead a = (s.mem.read a, s) := by
  simp only [State.memRead, State.intercept, State.peek, if_neg h]

/-- A read of `0xFE00` with a character pending (R52). -/
theorem memRead_kbsr_ready {s : State} {c : Nat} {rest : List Nat} (h : s.kbd ++ s.turn.keys = c :: rest) :
    s.memRead kbsrAddr = (kbsrReady,
      (({ s.arrive with kbd := rest } : State).memWrite kbsrAddr kbsrReady).memWrite kbdrAddr (charWord c)) := by
  have hne : kbsrAddr ≠ kbdrAddr := by decide
  simp [State.memRead, State.intercept, State.peek, State.latchPoll, kbdPoll_cons h,
    Memory.read_write_other _ _ hne]

/-- A read of `0xFE00` with nothing pending (R52). -/
theorem memRead_kbsr_empty {s : State} (h : s.kbd ++ s.turn.keys = []) :
    s.memRead kbsrAddr = (0#16, s.arrive.memWrite kbsrAddr 0#16) := by
  simp [State.memRead, State.intercept, State.peek, State.latchPoll, kbdPoll_nil h]

theorem memRead_bus (s : State) (a : Word) : BusStep s (s.memRead a).2 := by
  simp only [State.memRead, State.intercept]
  split
  · exact latchPoll_bus s
  · exact BusStep.refl s

/-- A read emits nothing. -/
@[simp] theorem memRead_con (s : State) (a : Word) : (s.memRead a).2.con = s.con := by
  by_cases h : a = kbsrAddr
  · subst h
    cases e : s.kbd ++ s.turn.keys with
    | nil => simp [memRead_kbsr_empty e]
    | cons c rest => simp [memRead_kbsr_ready e]
  · rw [memRead_plain h]

/-- The fetch (R217): a bus read, and the increment. -/
theorem fetch_pc (s : State) : s.fetch.2.pc = s.pc + 1#16 := rfl

theorem fetch_bus (s : State) : BusStep (s.setPc (s.pc + 1#16)) s.fetch.2 := by
  have h := memRead_bus s s.pc
  exact { h with pc := rfl }

/-- A load from an address that is not intercepted. -/
theorem load_plain {s : State} (dr : Reg) {ea : Word} (h : ea ≠ kbsrAddr) :
    s.load dr ea = s.setResult dr (s.mem.read ea) := by
  simp only [State.load, memRead_plain h]

/-- A pointer read at an address that is not intercepted. -/
theorem indirect9_plain {s : State} {off9 : BitVec 9} (h : s.pcRel9 off9 ≠ kbsrAddr) :
    s.indirect9 off9 = (s.mem.read (s.pcRel9 off9), s) := memRead_plain h

/-! ### String scans -/

/-- A scan that ends changes no more than reads and console requests do. -/
theorem scan_bus {bytes : Word → List Byte} {n : Nat} {a : Word} {s t : State}
    (h : scan bytes n a s = .done t ∨ scan bytes n a s = .failed t) : BusStep s t := by
  induction n generalizing a s with
  | zero => simp [scan] at h
  | succ n ih =>
    have hr := memRead_bus s a
    have hc := conOutAll_bus (s.memRead a).2 (bytes (s.memRead a).1)
    unfold scan at h
    split at h
    · rcases h with h | h
      · cases h; exact hr
      · cases h
    · split at h
      · next s' e => rw [e] at hc; exact (hr.trans hc).trans (ih h)
      · next s' e =>
        rw [e] at hc
        rcases h with h | h
        · cases h
        · cases h; exact hr.trans hc

/-- A larger bound does not change a scan that has ended. -/
theorem scan_bound_mono {bytes : Word → List Byte} {n m : Nat} {a : Word} {s : State} (hnm : n ≤ m)
    (h : scan bytes n a s ≠ .endless) : scan bytes m a s = scan bytes n a s := by
  induction n generalizing a s m with
  | zero => exact absurd rfl h
  | succ n ih =>
    obtain ⟨m, rfl⟩ : ∃ k, m = k + 1 := ⟨m - 1, by omega⟩
    unfold scan at h ⊢
    split
    · rfl
    · next hz =>
      rw [if_neg hz] at h
      split
      · next s' e => rw [e] at h; exact ih (by omega) h
      · rfl

/-- A console that does not fail takes every byte. -/
theorem conOutAll_ok {s : State} (bs : List Byte) (h : s.turns = []) (k : s.lastTurn.fail = false) :
    (s.conOutAll bs).1 = true ∧ (s.conOutAll bs).2.turns = [] ∧
      ∀ c ∈ (s.conOutAll bs).2.kbd, c ∈ s.kbd ∨ c ∈ s.lastTurn.keys := by
  induction bs generalizing s with
  | nil => exact ⟨rfl, h, fun c hc => .inl hc⟩
  | cons b bs ih =>
    have ht : s.turn = s.lastTurn := by simp [State.turn, h]
    unfold State.conOutAll
    rw [conOut_ok b (by rw [ht, k])]
    have := ih (s := { s.arrive with con := s.con ++ [b] }) (by simp [State.arrive, h]) k
    refine ⟨this.1, this.2.1, fun c hc => ?_⟩
    rcases this.2.2 c hc with h1 | h1
    · simpa [State.arrive, ht] using h1
    · exact .inr h1

/-- With every cell non-zero, a non-zero key always pending and a console that does not fail, no number of
reads ends a scan (20_memory.md R67). -/
theorem scan_full_memory {bytes : Word → List Byte} {n : Nat} {a : Word} {s : State}
    (hm : ∀ b, s.mem.read b ≠ 0#16) (ht : s.turns = []) (hf : s.lastTurn.fail = false)
    (hk : s.lastTurn.keys ≠ []) (hc : ∀ c, c ∈ s.kbd ∨ c ∈ s.lastTurn.keys → charWord c ≠ 0#16) :
    scan bytes n a s = .endless := by
  induction n generalizing a s with
  | zero => rfl
  | succ n ih =>
    obtain ⟨h1, h2, h3, h4, h5⟩ : (s.memRead a).1 ≠ 0#16 ∧ (∀ b, (s.memRead a).2.mem.read b ≠ 0#16) ∧
        (s.memRead a).2.turns = [] ∧ (s.memRead a).2.lastTurn = s.lastTurn ∧
        (∀ c, c ∈ (s.memRead a).2.kbd → c ∈ s.kbd ∨ c ∈ s.lastTurn.keys) := by
      by_cases ha : a = kbsrAddr
      · subst ha
        have hturn : s.turn = s.lastTurn := by simp [State.turn, ht]
        cases e : s.kbd ++ s.turn.keys with
        | nil => exact absurd (List.append_eq_nil_iff.1 e).2 (by rw [hturn]; exact hk)
        | cons c rest =>
          have hmem : ∀ d, d ∈ c :: rest → d ∈ s.kbd ∨ d ∈ s.lastTurn.keys := by
            intro d hd; rw [← e, hturn] at hd; exact List.mem_append.1 hd
          rw [memRead_kbsr_ready e]
          refine ⟨show kbsrReady ≠ 0#16 by decide, fun b => ?_, by simp [ht], rfl, fun d hd => hmem d (List.mem_cons_of_mem _ hd)⟩
          simp only [State.memWrite_mem, Memory.read_write]
          split
          · exact hc c (hmem c (List.mem_cons_self ..))
          · split
            · decide
            · exact hm b
      · rw [memRead_plain ha]
        exact ⟨hm a, hm, ht, rfl, fun c h => .inl h⟩
    have hbus := conOutAll_bus (s.memRead a).2 (bytes (s.memRead a).1)
    obtain ⟨k1, k2, k3⟩ := conOutAll_ok (bytes (s.memRead a).1) h3 (by rw [h4, hf])
    have kmem := conOutAll_mem (s.memRead a).2 (bytes (s.memRead a).1)
    unfold scan
    rw [if_neg h1]
    generalize he : (s.memRead a).2.conOutAll (bytes (s.memRead a).1) = r at k1 k2 k3 kmem hbus ⊢
    obtain ⟨ok, s'⟩ := r
    simp only at k1 k2 k3 kmem hbus
    subst k1
    have hl : s'.lastTurn = s.lastTurn := by rw [hbus.lastTurn, h4]
    refine ih (fun b => by rw [kmem]; exact h2 b) k2 (by rw [hl, hf]) (by rw [hl]; exact hk) fun c h => ?_
    rw [hl] at h
    rcases h with h | h
    · rcases k3 c h with h | h
      · exact hc c (h5 c h)
      · rw [h4] at h; exact hc c (.inr h)
    · exact hc c (.inr h)

/-- `scanBound` allows a scan of every cell twice. -/
theorem scanBound_ge (s : State) : 131072 ≤ scanBound s := by
  unfold scanBound; omega

end Sys2Proof.Machine
end

