-- ==== Sys2Proof/Laws/Load.lean ====
section
/-! SUPPORT. What the plain stores of an image do to memory, and that they do nothing else. -/

namespace Sys2Proof.Machine

theorem State.storeWords_frame (s : State) (a : Word) (ws : List Word) :
    s.storeWords a ws = { s with mem := (s.storeWords a ws).mem } := by
  induction ws generalizing s a with
  | nil => rfl
  | cons w ws ih => rw [State.storeWords, ih]; rfl

theorem State.storeWords_wf {s : State} (a : Word) (ws : List Word) (h : s.mem.wf = true) :
    (s.storeWords a ws).mem.wf = true := by
  induction ws generalizing s a with
  | nil => exact h
  | cons w ws ih => exact ih (a + 1#16) (memWrite_wf a w h)

/-- A cell that is none of the image's keeps its word. -/
theorem State.storeWords_read_other {s : State} {a b : Word} {ws : List Word}
    (h : ∀ k, k < ws.length → b ≠ a + BitVec.ofNat 16 k) :
    (s.storeWords a ws).mem.read b = s.mem.read b := by
  induction ws generalizing s a with
  | nil => rfl
  | cons w ws ih =>
    have h0 : b ≠ a := by simpa using h 0 (by simp)
    rw [State.storeWords, ih (fun k hk => ?_), State.memWrite_mem, Memory.read_write_other _ _ h0]
    have := h (k + 1) (by simpa using hk)
    rw [BitVec.ofNat_add] at this
    rwa [BitVec.add_assoc, BitVec.add_comm 1#16]

/-- The cell `k` places after the start holds the word `k` of the image. -/
theorem State.storeWords_read {s : State} {a : Word} {ws : List Word} (hlen : ws.length ≤ 65536) (k : Nat)
    (hk : k < ws.length) : (s.storeWords a ws).mem.read (a + BitVec.ofNat 16 k) = ws[k] := by
  induction ws generalizing s a k with
  | nil => exact absurd hk (Nat.not_lt_zero k)
  | cons w ws ih =>
    simp only [List.length_cons] at hlen hk
    cases k with
    | zero =>
      rw [State.storeWords, State.storeWords_read_other fun j hj => ?_]
      · simp
      · intro e
        have := congrArg BitVec.toNat e
        simp only [BitVec.toNat_add, BitVec.toNat_ofNat] at this
        have ha := a.isLt
        omega
    | succ k =>
      have := ih (s := s.memWrite a w) (a := a + 1#16) (by omega) k (by omega)
      rw [BitVec.add_assoc, BitVec.add_comm 1#16, ← BitVec.ofNat_add] at this
      simpa [State.storeWords] using this

end Sys2Proof.Machine
end

