-- ==== Sys2Proof/Laws/PerInstr.lean ====
section
/-! SUPPORT. A statement about every instruction as a term, one lemma for each constructor: the high-order
four bits of an encoded instruction are its opcode number (30_encoding.md R80, R90). -/

namespace Sys2Proof.Laws.EncodeOpcode

/-- `IR[15:12]` of the encoded word is the instruction's opcode. -/
def Statement (i : Instr) : Prop := opcodeField (encode i) = i.opcode

theorem addReg (a : Reg) (b : Reg) (c : Reg) : Statement (.addReg a b c) := by
  refine extractLsb'_eq_of_bits fun i hi => ?_
  interval_cases i <;> simp only [encode, Instr.opcode, BitVec.getLsbD_append] <;> simp

theorem addImm (a : Reg) (b : Reg) (c : BitVec 5) : Statement (.addImm a b c) := by
  refine extractLsb'_eq_of_bits fun i hi => ?_
  interval_cases i <;> simp only [encode, Instr.opcode, BitVec.getLsbD_append] <;> simp

theorem andReg (a : Reg) (b : Reg) (c : Reg) : Statement (.andReg a b c) := by
  refine extractLsb'_eq_of_bits fun i hi => ?_
  interval_cases i <;> simp only [encode, Instr.opcode, BitVec.getLsbD_append] <;> simp

theorem andImm (a : Reg) (b : Reg) (c : BitVec 5) : Statement (.andImm a b c) := by
  refine extractLsb'_eq_of_bits fun i hi => ?_
  interval_cases i <;> simp only [encode, Instr.opcode, BitVec.getLsbD_append] <;> simp

theorem not (a : Reg) (b : Reg) : Statement (.not a b) := by
  refine extractLsb'_eq_of_bits fun i hi => ?_
  interval_cases i <;> simp only [encode, Instr.opcode, BitVec.getLsbD_append] <;> simp

theorem br (a : BitVec 3) (b : BitVec 9) : Statement (.br a b) := by
  refine extractLsb'_eq_of_bits fun i hi => ?_
  interval_cases i <;> simp only [encode, Instr.opcode, BitVec.getLsbD_append] <;> simp

theorem jmp (a : Reg) : Statement (.jmp a) := by
  refine extractLsb'_eq_of_bits fun i hi => ?_
  interval_cases i <;> simp only [encode, Instr.opcode, BitVec.getLsbD_append] <;> simp

theorem jsr (a : BitVec 11) : Statement (.jsr a) := by
  refine extractLsb'_eq_of_bits fun i hi => ?_
  interval_cases i <;> simp only [encode, Instr.opcode, BitVec.getLsbD_append] <;> simp

theorem jsrr (a : Reg) : Statement (.jsrr a) := by
  refine extractLsb'_eq_of_bits fun i hi => ?_
  interval_cases i <;> simp only [encode, Instr.opcode, BitVec.getLsbD_append] <;> simp

theorem ld (a : Reg) (b : BitVec 9) : Statement (.ld a b) := by
  refine extractLsb'_eq_of_bits fun i hi => ?_
  interval_cases i <;> simp only [encode, Instr.opcode, BitVec.getLsbD_append] <;> simp

theorem ldi (a : Reg) (b : BitVec 9) : Statement (.ldi a b) := by
  refine extractLsb'_eq_of_bits fun i hi => ?_
  interval_cases i <;> simp only [encode, Instr.opcode, BitVec.getLsbD_append] <;> simp

theorem ldr (a : Reg) (b : Reg) (c : BitVec 6) : Statement (.ldr a b c) := by
  refine extractLsb'_eq_of_bits fun i hi => ?_
  interval_cases i <;> simp only [encode, Instr.opcode, BitVec.getLsbD_append] <;> simp

theorem lea (a : Reg) (b : BitVec 9) : Statement (.lea a b) := by
  refine extractLsb'_eq_of_bits fun i hi => ?_
  interval_cases i <;> simp only [encode, Instr.opcode, BitVec.getLsbD_append] <;> simp

theorem st (a : Reg) (b : BitVec 9) : Statement (.st a b) := by
  refine extractLsb'_eq_of_bits fun i hi => ?_
  interval_cases i <;> simp only [encode, Instr.opcode, BitVec.getLsbD_append] <;> simp

theorem sti (a : Reg) (b : BitVec 9) : Statement (.sti a b) := by
  refine extractLsb'_eq_of_bits fun i hi => ?_
  interval_cases i <;> simp only [encode, Instr.opcode, BitVec.getLsbD_append] <;> simp

theorem str (a : Reg) (b : Reg) (c : BitVec 6) : Statement (.str a b c) := by
  refine extractLsb'_eq_of_bits fun i hi => ?_
  interval_cases i <;> simp only [encode, Instr.opcode, BitVec.getLsbD_append] <;> simp

theorem trapGetc (a : BitVec 4) : Statement (.trapGetc a) := by
  refine extractLsb'_eq_of_bits fun i hi => ?_
  interval_cases i <;> simp only [encode, Instr.opcode, BitVec.getLsbD_append] <;> simp

theorem trapOut (a : BitVec 4) : Statement (.trapOut a) := by
  refine extractLsb'_eq_of_bits fun i hi => ?_
  interval_cases i <;> simp only [encode, Instr.opcode, BitVec.getLsbD_append] <;> simp

theorem trapPuts (a : BitVec 4) : Statement (.trapPuts a) := by
  refine extractLsb'_eq_of_bits fun i hi => ?_
  interval_cases i <;> simp only [encode, Instr.opcode, BitVec.getLsbD_append] <;> simp

theorem trapIn (a : BitVec 4) : Statement (.trapIn a) := by
  refine extractLsb'_eq_of_bits fun i hi => ?_
  interval_cases i <;> simp only [encode, Instr.opcode, BitVec.getLsbD_append] <;> simp

theorem trapPutsp (a : BitVec 4) : Statement (.trapPutsp a) := by
  refine extractLsb'_eq_of_bits fun i hi => ?_
  interval_cases i <;> simp only [encode, Instr.opcode, BitVec.getLsbD_append] <;> simp

theorem trapHalt (a : BitVec 4) : Statement (.trapHalt a) := by
  refine extractLsb'_eq_of_bits fun i hi => ?_
  interval_cases i <;> simp only [encode, Instr.opcode, BitVec.getLsbD_append] <;> simp

theorem trapOther (a : BitVec 4) (b : BitVec 8) : Statement (.trapOther a b) := by
  refine extractLsb'_eq_of_bits fun i hi => ?_
  interval_cases i <;> simp only [encode, Instr.opcode, BitVec.getLsbD_append] <;> simp

theorem res (a : BitVec 12) : Statement (.res a) := by
  refine extractLsb'_eq_of_bits fun i hi => ?_
  interval_cases i <;> simp only [encode, Instr.opcode, BitVec.getLsbD_append] <;> simp

theorem undef1000 (a : BitVec 12) : Statement (.undef1000 a) := by
  refine extractLsb'_eq_of_bits fun i hi => ?_
  interval_cases i <;> simp only [encode, Instr.opcode, BitVec.getLsbD_append] <;> simp

end Sys2Proof.Laws.EncodeOpcode
end

