-- ==== Sys2Proof/Laws/Scan.lean ====
section
/-! SUPPORT. What console output and a string scan do, request by request: each lemma gives the whole end state of
a scan whose words, keys and console answers are known (43_trap.md R153, R155; 60_exceptions.md R184, R185). -/

namespace Sys2Proof

open Sys2Proof.Machine

/-! ### Requests by number -/

theorem turn_eq (s : State) : s.turn = turnAt s 0 := by
  unfold State.turn turnAt; cases s.turns <;> rfl

theorem turnAt_afterRequests (s : State) (n j : Nat) (bs : List Byte) :
    turnAt (afterRequests s n bs) j = turnAt s (n + j) := by
  simp [turnAt, afterRequests, List.getD_eq_getElem?_getD]

theorem arriving_one (s : State) (i : Nat) : arriving s i 1 = (turnAt s i).keys := by
  simp [arriving]

theorem arriving_add (s : State) (i n m : Nat) :
    arriving s i (n + m) = arriving s i n ++ arriving s (i + n) m := by
  simp only [arriving, ← List.flatMap_append]
  rw [← List.range'_append_1]

theorem arriving_afterRequests (s : State) (n i m : Nat) (bs : List Byte) :
    arriving (afterRequests s n bs) i m = arriving s (n + i) m := by
  simp only [arriving, turnAt_afterRequests, List.flatMap]
  congr 1
  refine List.ext_getElem (by simp) fun k _ _ => ?_
  simp [Nat.add_assoc]

@[simp] theorem afterRequests_mem (s : State) (n : Nat) (bs : List Byte) :
    (afterRequests s n bs).mem = s.mem := rfl

@[simp] theorem afterRequests_zero (s : State) : afterRequests s 0 [] = s := by
  simp [afterRequests, arriving]

theorem afterRequests_add (s : State) (n m : Nat) (bs cs : List Byte) :
    afterRequests (afterRequests s n bs) m cs = afterRequests s (n + m) (bs ++ cs) := by
  have h := arriving_afterRequests s n 0 m bs
  simp only [afterRequests] at h ⊢
  simp [h, arriving_add s 0 n m]

theorem arrive_eq (s : State) : s.arrive = afterRequests s 1 [] := by
  simp [State.arrive, afterRequests, arriving_one, turn_eq]

/-! ### Console output -/

theorem conOut_done {s : State} (b : Byte) (h : (turnAt s 0).fail = false) :
    s.conOut b = (true, afterRequests s 1 [b]) := by
  rw [conOut_ok b (by rw [turn_eq, h]), arrive_eq]; simp [afterRequests]

/-- Bytes that all succeed. -/
theorem conOutAll_done {s : State} (bs : List Byte) (h : ∀ j < bs.length, (turnAt s j).fail = false) :
    s.conOutAll bs = (true, afterRequests s bs.length bs) := by
  induction bs generalizing s with
  | nil => simp [State.conOutAll]
  | cons b bs ih =>
    simp only [State.conOutAll, conOut_done b (h 0 (by simp))]
    rw [ih fun j hj => by rw [turnAt_afterRequests]; exact h (1 + j) (by simp; omega)]
    simp [afterRequests_add, Nat.add_comm]

/-- The byte number `k` is the first that fails: the bytes before it are in `CON` (R185). -/
theorem conOutAll_fails {s : State} {bs : List Byte} {k : Nat} (hk : k < bs.length)
    (h : ∀ j < k, (turnAt s j).fail = false) (hf : (turnAt s k).fail = true) :
    s.conOutAll bs = (false, afterRequests s (k + 1) (bs.take k)) := by
  induction bs generalizing s k with
  | nil => simp at hk
  | cons b bs ih =>
    cases k with
    | zero => simp [State.conOutAll, conOut_fail b (by rw [turn_eq, hf] : s.turn.fail = true), arrive_eq]
    | succ k =>
      simp only [State.conOutAll, conOut_done b (h 0 (by omega))]
      rw [ih (k := k) (by simpa using hk)
        (fun j hj => by rw [turnAt_afterRequests]; exact h (1 + j) (by omega))
        (by rw [turnAt_afterRequests, Nat.add_comm]; exact hf)]
      simp [afterRequests_add, Nat.add_comm]

/-! ### Words in memory -/

/-- Words in memory do not depend on the cell `0xFE00`, nor on anything but memory. -/
theorem WordsAt.congr {s t : State} {a : Word} {ws : List Word} (k : WordsAt s a ws)
    (h : ∀ b, b ≠ kbsrAddr → t.mem.read b = s.mem.read b) : WordsAt t a ws := by
  induction ws generalizing a with
  | nil => trivial
  | cons w ws ih => exact ⟨k.1, k.2.1, (h a k.1).trans k.2.2.1, ih k.2.2.2⟩

theorem StringAt.congr {s t : State} {a : Word} {ws : List Word} (k : StringAt s a ws)
    (h : ∀ b, b ≠ kbsrAddr → t.mem.read b = s.mem.read b) : StringAt t a ws :=
  ⟨k.1.congr h, k.2.1, (h _ k.2.1).trans k.2.2⟩

theorem WordsAt.ne_kbsr {s : State} {a : Word} {ws : List Word} (h : WordsAt s a ws) {i : Nat}
    (hi : i < ws.length) : a + BitVec.ofNat 16 i ≠ kbsrAddr := by
  induction ws generalizing a i with
  | nil => simp at hi
  | cons w ws ih =>
    cases i with
    | zero => simpa using h.1
    | succ i =>
      have := ih h.2.2.2 (i := i) (by simpa using hi)
      rwa [BitVec.add_assoc, ← BitVec.ofNat_add, Nat.add_comm 1 i] at this

/-- Since every run of 65536 cells meets `0xFE00`, the words are fewer. -/
theorem WordsAt.length_lt {s : State} {a : Word} {ws : List Word} (h : WordsAt s a ws) :
    ws.length < 65536 := by
  by_contra hn
  refine h.ne_kbsr (i := (kbsrAddr - a).toNat) (by have := (kbsrAddr - a).isLt; omega) ?_
  rw [BitVec.ofNat_toNat, BitVec.setWidth_eq]
  bv_omega

/-! ### Scans -/

variable {out : Word → List Byte}

/-- A scan over words that stand in memory: it has read them, emitted their bytes, and goes on behind them. -/
theorem scan_words {s : State} {a : Word} {ws : List Word} (n : Nat) (h : WordsAt s a ws)
    (hf : ∀ j < (ws.flatMap out).length, (turnAt s j).fail = false) :
    scan out (ws.length + n) a s = scan out n (a + BitVec.ofNat 16 ws.length)
      (afterRequests s (ws.flatMap out).length (ws.flatMap out)) := by
  induction ws generalizing a s with
  | nil => simp
  | cons w ws ih =>
    obtain ⟨ha, hw, hr, hrest⟩ := h
    simp only [List.flatMap_cons, List.length_append] at hf
    rw [show (w :: ws).length + n = (ws.length + n) + 1 by simp; omega]
    simp only [scan, memRead_plain ha, hr, if_neg hw, conOutAll_done (out w) fun j hj => hf j (by omega)]
    rw [ih (hrest.congr (t := afterRequests s (out w).length (out w)) fun _ _ => rfl)
      fun j hj => by rw [turnAt_afterRequests]; exact hf _ (by omega)]
    rw [afterRequests_add, BitVec.add_assoc, ← BitVec.ofNat_add, Nat.add_comm 1]
    simp [List.length_append]

/-- A scan over words in which the byte number `k` is the first that fails. -/
theorem scan_words_fails {s : State} {a : Word} {ws : List Word} {n k : Nat} (h : WordsAt s a ws)
    (hn : ws.length ≤ n) (hk : k < (ws.flatMap out).length) (hf : ∀ j < k, (turnAt s j).fail = false)
    (hx : (turnAt s k).fail = true) :
    scan out n a s = .failed (afterRequests s (k + 1) ((ws.flatMap out).take k)) := by
  induction ws generalizing a s n k with
  | nil => simp at hk
  | cons w ws ih =>
    obtain ⟨ha, hw, hr, hrest⟩ := h
    obtain ⟨n, rfl⟩ : ∃ m, n = m + 1 := ⟨n - 1, by simp at hn; omega⟩
    simp only [List.flatMap_cons, List.length_append] at hk
    simp only [scan, memRead_plain ha, hr, if_neg hw]
    by_cases hkw : k < (out w).length
    · rw [conOutAll_fails hkw hf hx]
      simp [List.take_append_of_le_length (Nat.le_of_lt hkw)]
    · rw [conOutAll_done (out w) fun j hj => hf j (by omega)]
      obtain ⟨i, rfl⟩ : ∃ i, k = (out w).length + i := ⟨k - (out w).length, by omega⟩
      simp only
      rw [ih (k := i) (hrest.congr (t := afterRequests s (out w).length (out w)) fun _ _ => rfl)
        (by simpa using hn) (by omega)
        (fun j hj => by rw [turnAt_afterRequests]; exact hf _ (by omega))
        (by rw [turnAt_afterRequests]; exact hx)]
      simp [afterRequests_add, List.take_length_add_append, Nat.add_assoc]

/-- A scan of a string outside `0xFE00`. -/
theorem scan_string {s : State} {a : Word} {ws : List Word} {n : Nat} (h : StringAt s a ws)
    (hn : ws.length < n) (hf : ∀ j < (ws.flatMap out).length, (turnAt s j).fail = false) :
    scan out n a s = .done (afterRequests s (ws.flatMap out).length (ws.flatMap out)) := by
  obtain ⟨m, rfl⟩ : ∃ m, n = ws.length + (m + 1) := ⟨n - ws.length - 1, by omega⟩
  rw [scan_words _ h.1 hf]
  simp [scan, memRead_plain h.2.1, h.2.2]

/-- A scan that comes to `0xFE00` with no key pending ends there. -/
theorem scan_poll_empty {s : State} {n : Nat} (hk : s.kbd ++ arriving s 0 1 = []) :
    scan out (n + 1) kbsrAddr s = .done ((afterRequests s 1 []).memWrite kbsrAddr 0#16) := by
  rw [arriving_one, ← turn_eq] at hk
  simp [scan, memRead_kbsr_empty hk, arrive_eq]

/-- The state after a poll that has taken the key `c`. -/
theorem scan_poll_key {s : State} {n c : Nat} {rest : List Nat} (hk : s.kbd ++ arriving s 0 1 = c :: rest) :
    scan out (n + 1) kbsrAddr s =
      match State.conOutAll
        ((({ afterRequests s 1 [] with kbd := rest } : State).memWrite kbsrAddr kbsrReady).memWrite kbdrAddr
          (charWord c)) (out kbsrReady) with
      | (true, t) => scan out n (kbsrAddr + 1#16) t
      | (false, t) => .failed t := by
  rw [arriving_one, ← turn_eq] at hk
  rw [scan, memRead_kbsr_ready hk, if_neg (by decide : ¬kbsrReady = 0#16), arrive_eq]
  all_goals rfl

/-- A scan over words up to `0xFE00`, where the poll takes the key `c`: from the state `u` in which KBSR and KBDR are
latched it emits the bytes of KBSR and goes on at `0xFE01`. -/
theorem scan_words_poll_key {s : State} {start : Word} {ws : List Word} {c m : Nat} {rest : List Nat}
    (hm : 131072 ≤ m) (h : WordsAt s start ws) (he : start + BitVec.ofNat 16 ws.length = kbsrAddr)
    (hf : ∀ j < (ws.flatMap out).length, (turnAt s j).fail = false)
    (hk : s.kbd ++ arriving s 0 ((ws.flatMap out).length + 1) = c :: rest) :
    ∃ u n, 65536 ≤ n ∧
      (scan out m start s =
        match u.conOutAll (out kbsrReady) with
        | (true, t) => scan out n (kbsrAddr + 1#16) t
        | (false, t) => .failed t) ∧
      (∀ j, turnAt u j = turnAt s ((ws.flatMap out).length + 1 + j)) ∧
      (∀ a, u.mem.read a =
        if a = kbdrAddr then charWord c else if a = kbsrAddr then kbsrReady else s.mem.read a) ∧
      u = { afterRequests s ((ws.flatMap out).length + 1) (ws.flatMap out) with mem := u.mem, kbd := rest } := by
  have hl := h.length_lt
  obtain ⟨n, hn⟩ : ∃ n, m = ws.length + (n + 1) := ⟨m - ws.length - 1, by omega⟩
  have hk' : (afterRequests s (ws.flatMap out).length (ws.flatMap out)).kbd ++
      arriving (afterRequests s (ws.flatMap out).length (ws.flatMap out)) 0 1 = c :: rest := by
    rw [arriving_afterRequests]
    rw [arriving_add] at hk
    simpa [afterRequests] using hk
  refine ⟨(({ afterRequests s ((ws.flatMap out).length + 1) (ws.flatMap out ++ []) with kbd := rest } :
    State).memWrite kbsrAddr kbsrReady).memWrite kbdrAddr (charWord c), n, by omega, ?_, fun j => ?_,
    fun a => ?_, ?_⟩
  · rw [hn, scan_words _ h hf, he, scan_poll_key hk', afterRequests_add]
  · exact turnAt_afterRequests s _ j (ws.flatMap out ++ [])
  · simp only [State.memWrite_mem, Memory.read_write]
    rfl
  · simp [State.memWrite]

end Sys2Proof
end

