-- ==== Sys2Proof/Tests/Slice0.lean ====
section
/-! SUPPORT. Tests. Expected results are those of spec/95_test_vectors.md, whose ids stand in the comments, or
are computed by hand from the rule named; words are written out from 30_encoding.md R85. -/

namespace Sys2Proof.Tests

open Sys2Proof.Machine

/-! ### Well-formedness: the one check, and terms it refuses -/

theorem test_wf_refuses_getc_as_other : Instr.wf (.trapOther 0#4 0x20#8) = false := by decide
theorem test_wf_refuses_halt_as_other : Instr.wf (.trapOther 5#4 0x25#8) = false := by decide
theorem test_wf_accepts_below : Instr.wf (.trapOther 0#4 0x1F#8) = true := by decide
theorem test_wf_accepts_above : Instr.wf (.trapOther 0#4 0x26#8) = true := by decide

/-! ### Decoding: a word written out for every constructor -/

theorem test_decode_addReg : decode 0b0001_000_001_0_00_010#16 = .addReg .r0 .r1 .r2 := by decide
theorem test_decode_addReg_ignores : decode 0b0001_000_001_0_11_000#16 = .addReg .r0 .r1 .r0 := by decide
theorem test_decode_addImm : decode 0b0001_001_010_1_00101#16 = .addImm .r1 .r2 0b00101#5 := by decide
theorem test_decode_andReg : decode 0b0101_000_001_0_00_010#16 = .andReg .r0 .r1 .r2 := by decide
theorem test_decode_andImm : decode 0b0101_011_110_1_10000#16 = .andImm .r3 .r6 0b10000#5 := by decide
theorem test_decode_not : decode 0b1001_100_101_111111#16 = .not .r4 .r5 := by decide
theorem test_decode_not_ignores : decode 0b1001_000_000_010101#16 = .not .r0 .r0 := by decide
theorem test_decode_br : decode 0b0000_001_111111101#16 = .br 0b001#3 0b111111101#9 := by decide
theorem test_decode_br_n : decode 0b0000_100_000000101#16 = .br 0b100#3 0b000000101#9 := by decide
theorem test_decode_jmp : decode 0b1100_000_111_000000#16 = .jmp .r7 := by decide
theorem test_decode_jmp_ignores : decode 0b1100_111_010_000111#16 = .jmp .r2 := by decide
theorem test_decode_jsr : decode 0b0100_1_10000000001#16 = .jsr 0b10000000001#11 := by decide
theorem test_decode_jsrr : decode 0b0100_0_00_010_000000#16 = .jsrr .r2 := by decide
theorem test_decode_jsrr_ignores : decode 0b0100_0_11_010_000000#16 = .jsrr .r2 := by decide
theorem test_decode_ld : decode 0b0010_000_111111111#16 = .ld .r0 0b111111111#9 := by decide
theorem test_decode_ldi : decode 0b1010_001_000000100#16 = .ldi .r1 0b000000100#9 := by decide
theorem test_decode_ldr : decode 0b0110_010_001_100000#16 = .ldr .r2 .r1 0b100000#6 := by decide
theorem test_decode_lea : decode 0b1110_001_000001001#16 = .lea .r1 0b000001001#9 := by decide
theorem test_decode_st : decode 0b0011_100_000000110#16 = .st .r4 0b000000110#9 := by decide
theorem test_decode_sti : decode 0b1011_100_000000110#16 = .sti .r4 0b000000110#9 := by decide
theorem test_decode_str : decode 0b0111_101_001_000011#16 = .str .r5 .r1 0b000011#6 := by decide
theorem test_decode_getc : decode 0b1111_0000_00100000#16 = .trapGetc 0b0000#4 := by decide
theorem test_decode_out : decode 0b1111_0000_00100001#16 = .trapOut 0b0000#4 := by decide
theorem test_decode_puts : decode 0b1111_0000_00100010#16 = .trapPuts 0b0000#4 := by decide
theorem test_decode_in : decode 0b1111_0000_00100011#16 = .trapIn 0b0000#4 := by decide
theorem test_decode_putsp : decode 0b1111_0000_00100100#16 = .trapPutsp 0b0000#4 := by decide
theorem test_decode_halt : decode 0b1111_0001_00100101#16 = .trapHalt 0b0001#4 := by decide
theorem test_decode_other_below : decode 0b1111_0000_00011111#16 = .trapOther 0b0000#4 0x1F#8 := by decide
theorem test_decode_other_above : decode 0b1111_0000_00100110#16 = .trapOther 0b0000#4 0x26#8 := by decide
theorem test_decode_res : decode 0b1101_111111111111#16 = .res 0b111111111111#12 := by decide
theorem test_decode_undef : decode 0b1000_000000000000#16 = .undef1000 0b000000000000#12 := by decide

/-- The table's numbering: a row of 16 bits is one word; the table has no wider row. -/
theorem test_decodeTableWord : decodeTableWord 16 0x12A5 = some (.addImm .r1 .r2 5#5) ∧
    decodeTableWord 32 0x12A5 = none := by decide

/-- No two rows of the table overlap, but for the TRAP rows of priority 1 and the row they override. -/
theorem test_table_rows_disjoint :
    (opcodeTable.eraseIdx 22).Pairwise (fun r q => r.1 &&& q.2 &&& r.2 ≠ q.1 &&& r.2 &&& q.2) := by decide

/-! ### Sign extension (V-SEXT) and the flag function (V-CC) -/

theorem test_sext5 : sext 0x0F#5 = 0x000F#16 ∧ sext 0x10#5 = 0xFFF0#16 ∧ sext 0x1F#5 = 0xFFFF#16 := by decide
theorem test_sext6 : sext 0x1F#6 = 0x001F#16 ∧ sext 0x20#6 = 0xFFE0#16 := by decide
theorem test_sext9 : sext 0x0FF#9 = 0x00FF#16 ∧ sext 0x100#9 = 0xFF00#16 := by decide
theorem test_sext11 : sext 0x3FF#11 = 0x03FF#16 ∧ sext 0x400#11 = 0xFC00#16 := by decide
theorem test_setcc : [0x0000#16, 0x0001#16, 0x7FFF#16, 0x8000#16, 0x8001#16, 0xFFFF#16].map condOf =
    [.zero, .positive, .positive, .negative, .negative, .negative] := by decide

/-! ### One step -/

/-- The reset state with the word `w` at `a` and `pc` there ("word @ addr" of 95_test_vectors.md). -/
def at' (w a : Word) : State := (State.reset.setPc a).memWrite a w

/-- Cells of memory preset. -/
def withCells (s : State) (cells : List (Word × Word)) : State :=
  cells.foldl (fun t c => t.memWrite c.1 c.2) s

/-- The next state of a step, if it has one. -/
def next? (s : State) : Option State :=
  match step s with
  | .next t => some t
  | .fault _ => none
  | .refused _ => none

/-- What a test looks at: the state after one step. -/
def after {α : Type} (s : State) (f : State → α) : Option α := (next? s).map f

-- OP2: signed overflow wraps. OP9: all three fields the same register.
theorem test_addReg_wraps : after (((at' 0x1042 0x3000).setReg .r1 0x7FFF).setReg .r2 1)
    (fun t => (t.regs.r0, t.cond, t.pc)) = some (0x8000, .negative, 0x3001) := by decide
theorem test_addReg_same : after ((at' 0x1000 0x3000).setReg .r0 0x4000)
    (fun t => (t.regs.r0, t.cond)) = some (0x8000, .negative) := by decide
-- OP5, scenario A. OP7.
theorem test_addImm : after (at' 0x12A5 0x3000)
    (fun t => (t.regs.r1, t.cond, t.pc)) = some (5, .positive, 0x3001) := by decide
theorem test_addImm_lowest : after ((at' 0x1270 0x3000).setReg .r1 0x0010)
    (fun t => (t.regs.r1, t.cond)) = some (0, .zero) := by decide
-- OP12. OP16.
theorem test_andReg : after (((at' 0x5042 0x3000).setReg .r1 0xF0F0).setReg .r2 0x0FF0)
    (fun t => (t.regs.r0, t.cond)) = some (0x00F0, .positive) := by decide
theorem test_andImm : after ((at' 0x5270 0x3000).setReg .r1 0x801F)
    (fun t => (t.regs.r1, t.cond)) = some (0x8010, .negative) := by decide
-- OP18. OP21.
theorem test_not_zero : after ((at' 0x907F 0x3000).setReg .r1 0xFFFF)
    (fun t => (t.regs.r0, t.cond)) = some (0, .zero) := by decide
theorem test_not_ignores : after ((at' 0x9015 0x3000).setReg .r0 0x5555)
    (fun t => (t.regs.r0, t.cond)) = some (0xAAAA, .negative) := by decide
-- V-BR: the whole table of masks and flags.
theorem test_br_table : [0x0005#16, 0x0805#16, 0x0405#16, 0x0205#16, 0x0C05#16, 0x0605#16, 0x0A05#16,
      0x0E05#16].map (fun w => [Cond.negative, .zero, .positive].map (fun c =>
        after { at' w 0x3000 with cond := c } (fun t => decide (t.pc = 0x3006)))) =
    [[some false, some false, some false], [some true, some false, some false],
     [some false, some true, some false], [some false, some false, some true],
     [some true, some true, some false], [some false, some true, some true],
     [some true, some false, some true], [some true, some true, some true]] := by decide
-- BR4.
theorem test_br_wraps : after (at' 0x0F00 0xFFFF) (fun t => t.pc) = some 0xFF00 := by decide
-- J3.
theorem test_jmp : after ((at' 0xCE87 0x3000).setReg .r2 0x1234) (fun t => t.pc) = some 0x1234 := by decide
-- J7. J9.
theorem test_jsr_lowest : after (at' 0x4C00 0x3000)
    (fun t => (t.regs.r7, t.pc)) = some (0x3001, 0x2C01) := by decide
theorem test_jsr_wraps : after (at' 0x4FFE 0x0000)
    (fun t => (t.regs.r7, t.pc)) = some (0x0001, 0xFFFF) := by decide
-- J11. J12: JSRR R7 falls through.
theorem test_jsrr : after ((at' 0x4080 0x3000).setReg .r2 0x4000)
    (fun t => (t.regs.r7, t.pc)) = some (0x3001, 0x4000) := by decide
theorem test_jsrr_r7 : after ((at' 0x41C0 0x3000).setReg .r7 0x5000)
    (fun t => (t.regs.r7, t.pc)) = some (0x3001, 0x3001) := by decide
-- L3. L5: a load from FE00 polls.
theorem test_ld_lowest : after (withCells (at' 0x2100 0x3100) [(0x3001, 0x0777)])
    (fun t => (t.regs.r0, t.cond)) = some (0x0777, .positive) := by decide
theorem test_ld_polls : after { at' 0x2000 0xFDFF with kbd := [0x6B] }
    (fun t => (t.regs.r0, t.cond, t.mem.read 0xFE00, t.mem.read 0xFE02, t.kbd)) =
    some (0x8000, .negative, 0x8000, 0x006B, []) := by decide
-- L10: the second read polls. L12: the first one does.
theorem test_ldi_second : after { withCells (at' 0xA000 0x3000) [(0x3001, 0xFE00)] with kbd := [0x41, 0x42] }
    (fun t => (t.regs.r0, t.mem.read 0xFE02, t.kbd)) = some (0x8000, 0x0041, [0x42]) := by decide
theorem test_ldi_first :
    after { withCells (at' 0xA000 0xFDFF) [(0x8000, 0xBEEF), (0, 0x0111)] with kbd := [0x41] }
    (fun t => (t.regs.r0, t.cond, t.mem.read 0xFE00, t.kbd)) =
    some (0xBEEF, .negative, 0x8000, []) := by decide
-- L16. L18.
theorem test_ldr_wraps : after ((withCells (at' 0x6241 0x3000) [(0, 0x8001)]).setReg .r1 0xFFFF)
    (fun t => (t.regs.r1, t.cond)) = some (0x8001, .negative) := by decide
theorem test_ldr_lowest : after ((withCells (at' 0x6260 0x3000) [(0x4000, 3)]).setReg .r1 0x4020)
    (fun t => t.regs.r1) = some 3 := by decide
-- L22. L23.
theorem test_lea_negative : after (at' 0xE000 0x7FFF)
    (fun t => (t.regs.r0, t.cond, t.pc)) = some (0x8000, .negative, 0x8000) := by decide
theorem test_lea_zero : after { at' 0xE000 0xFFFF with cond := .positive }
    (fun t => (t.regs.r0, t.cond, t.pc)) = some (0, .zero, 0) := by decide
-- T1. T4: a store to FE00 is plain.
theorem test_st : after ((at' 0x3806 0x3005).setReg .r4 0x6DCC)
    (fun t => (t.mem.read 0x300C, t.cond)) = some (0x6DCC, .zero) := by decide
theorem test_st_kbsr : after { (at' 0x3000 0xFDFF).setReg .r0 0x8000 with kbd := [0x41] }
    (fun t => (t.mem.read 0xFE00, t.kbd)) = some (0x8000, [0x41]) := by decide
-- T5. T7: the pointer read polls.
theorem test_sti : after ((withCells (at' 0xB806 0x3008) [(0x300F, 0x3010)]).setReg .r4 0x6DCC)
    (fun t => (t.mem.read 0x3010, t.mem.read 0x300F)) = some (0x6DCC, 0x3010) := by decide
theorem test_sti_polls : after { (at' 0xB000 0xFDFF).setReg .r0 0x5555 with kbd := [0x78] }
    (fun t => (t.mem.read 0x8000, t.mem.read 0xFE00, t.mem.read 0xFE02, t.kbd)) =
    some (0x5555, 0x8000, 0x0078, []) := by decide
-- T10. T11.
theorem test_str_same : after ((at' 0x7240 0x3000).setReg .r1 0x4000)
    (fun t => t.mem.read 0x4000) = some 0x4000 := by decide
theorem test_str_wraps : after ((at' 0x707F 0x3000).setReg .r0 0x00AA)
    (fun t => t.mem.read 0xFFFF) = some 0x00AA := by decide
-- X1. X4: nothing of CORE changes while it waits.
theorem test_getc : after { ((at' 0xF020 0x3000).setReg .r0 0xFFFF).setReg .r7 0x1111 with
      kbd := [0x41], cond := .negative }
    (fun t => (t.regs.r0, t.regs.r7, t.cond, t.kbd, t.con)) =
    some (0x0041, 0x3001, .negative, [], []) := by decide
theorem test_getc_waits : next? ((at' 0xF020 0x3000).setReg .r7 0x1111) =
    some ((at' 0xF020 0x3000).setReg .r7 0x1111) := by decide
-- X5. F9: the console fails.
theorem test_out : after ((at' 0xF021 0x3000).setReg .r0 0x1241)
    (fun t => (t.con, t.regs.r7)) = some ([0x41], 0x3001) := by decide
theorem test_out_fails : after { at' 0xF021 0x3000 with lastTurn := { keys := [], fail := true } }
    (fun t => (t.status, t.faultRecord, t.con)) =
    some (.faulted, some { cause := .ioError .con, ir := 0xF021, faultPc := 0x3001 }, []) := by decide
-- X8. X11 and X12: the scan polls at FE00. R185: the second byte fails.
theorem test_puts_polls : after { (withCells (at' 0xF022 0x3000) [(0xFDFF, 0x0041)]).setReg .r0 0xFDFF with
      kbd := [0x71] }
    (fun t => (t.con, t.mem.read 0xFE00, t.mem.read 0xFE02, t.kbd)) =
    some ([0x41, 0x00], 0x8000, 0x0071, []) ∧
  after ((withCells (at' 0xF022 0x3000) [(0xFDFF, 0x0041), (0xFE00, 0x1234)]).setReg .r0 0xFDFF)
    (fun t => (t.con, t.mem.read 0xFE00, t.status)) = some ([0x41], 0x0000, .running) := by decide
theorem test_puts : after ((withCells (at' 0xF022 0x3000)
      [(0x4000, 0x1248), (0x4001, 0x0100), (0x4002, 0x0021)]).setReg .r0 0x4000)
    (fun t => (t.con, t.regs.r0, t.cond)) = some ([0x48, 0x00, 0x21], 0x4000, .zero) ∧
  after { (withCells (at' 0xF022 0x3000)
      [(0x4000, 0x0048), (0x4001, 0x0049)]).setReg .r0 0x4000 with
      turns := [Turn.quiet, { keys := [], fail := true }] }
    (fun t => (t.con, t.status, t.regs.r7, t.faultRecord)) =
    some ([0x48], .faulted, 0x3001, some { cause := .ioError .con, ir := 0xF022, faultPc := 0x3001 }) := by decide
-- X14. R185: the echo fails.
theorem test_in : after { at' 0xF023 0x3000 with kbd := [0], cond := .negative }
    (fun t => (t.regs.r0, t.con, t.cond)) = some (0, [0x00], .zero) := by decide
theorem test_in_echo_fails : after { at' 0xF023 0x3000 with
      kbd := [0xE9], cond := .negative, turns := [Turn.quiet, { keys := [], fail := true }] }
    (fun t => (t.regs.r0, t.cond, t.con, t.status)) = some (0x00E9, .negative, [], .faulted) := by decide
-- X17. X20: the other value of PUTSP_BASE.
theorem test_putsp : after ((withCells (at' 0xF024 0x3000)
      [(0, 0x6548), (1, 0x006C), (0x4000, 0x5858)]).setReg .r0 0x4000)
    (fun t => t.con) = some [0x48, 0x65, 0x6C] := by decide
theorem test_putsp_fromR0 : after { (withCells (at' 0xF024 0x3000)
      [(0x4000, 0x4241), (0x4001, 0x4300), (0x4002, 0x0044)]).setReg .r0 0x4000 with
      config := { resetCond := .zero, putspBase := .fromR0 } }
    (fun t => t.con) = some [0x41, 0x42, 0x00, 0x43, 0x44] := by decide
-- X21. X23.
theorem test_halt : after { (at' 0xF025 0x3000).setReg .r7 0xAAAA with cond := .negative }
    (fun t => (t.status, t.regs.r7, t.cond, t.pc)) = some (.halted, 0x3001, .negative, 0x3001) := by decide
theorem test_halt_ignores : after (at' 0xFF25 0x3000) (fun t => t.status) = some .halted := by decide
-- F4.
theorem test_other : after { (at' 0xF0FF 0x3000).setReg .r7 0x1234 with cond := .positive }
    (fun t => (t.status, t.faultRecord, t.regs.r7, t.cond)) =
    some (.faulted, some { cause := .invalidTrapVector, ir := 0xF0FF, faultPc := 0x3001 }, 0x3001,
      .positive) := by decide
theorem test_record_fields :
    ({ cause := .invalidTrapVector, ir := 0xF0FF, faultPc := 0x3001 } : FaultRecord).faultAddr = 0x3000 ∧
      ({ cause := .invalidTrapVector, ir := 0xF0FF, faultPc := 0x3001 } : FaultRecord).vector = 0xFF ∧
      ({ cause := .illegalOpcode, ir := 0xDFFF, faultPc := 0x4001 } : FaultRecord).opcode = 0xD := by decide
-- F6. F8.
theorem test_res : after (at' 0xDFFF 0x4000)
    (fun t => (t.status, t.faultRecord, t.regs.r7)) =
    some (.faulted, some { cause := .illegalOpcode, ir := 0xDFFF, faultPc := 0x4001 }, 0) := by decide
theorem test_undef : after ((at' 0x8FFF 0x3000).setReg .r7 5)
    (fun t => (t.status, t.faultRecord, t.regs.r7)) =
    some (.faulted, some { cause := .illegalOpcode, ir := 0x8FFF, faultPc := 0x3001 }, 5) := by decide

/-! ### The keyboard registers (V-KBD) and the environment -/

-- K7: the whole of KBDR is overwritten.
theorem test_kbdr_overwritten :
    ((({ State.reset with kbd := [0x61] } : State).memWrite 0xFE02 0x1255).memRead 0xFE00).2.mem.read 0xFE02 =
      0x0061 := by decide
-- K8: a key that arrives between two polls.
theorem test_key_arrives :
    (({ State.reset with turns := [Turn.quiet, { keys := [0x78], fail := false }] } : State).memRead 0xFE00).1 =
        0 ∧
      ((({ State.reset with turns := [Turn.quiet, { keys := [0x78], fail := false }] } : State).memRead
        0xFE00).2.memRead 0xFE00).1 = 0x8000 := by decide
-- R37: an access does not poll.
theorem test_peek_does_not_poll :
    (({ State.reset with kbd := [0x61] } : State).memWrite 0xFE00 0x1234).peek 0xFE00 = 0x1234 := by decide

/-! ### Load (V-LOAD) and reset -/

/-- The booted machine's memory and `pc`, from image bytes. -/
def booted (bytes : List Byte) : Option (Memory × Word) :=
  match boot Config.standard [] [] Turn.quiet bytes with
  | .ok s => some (s.mem, s.pc)
  | .error _ => none

theorem test_load_I1 : booted [0x30, 0x00, 0x12, 0xA5, 0xF0, 0x25] =
    some ([(0x3000, 0x12A5), (0x3001, 0xF025)], 0x3000) := by decide
theorem test_load_I2_I3 : booted [0x30, 0x00] = some ([], 0x3000) ∧
    booted [0xFF, 0xFF, 0x12, 0x34] = some ([(0xFFFF, 0x1234)], 0xFFFF) := by decide
theorem test_load_refused : booted [0xFF, 0xFF, 0x12, 0x34, 0x56, 0x78] = none ∧
    booted [0x30, 0x00, 0x12] = none ∧ booted [0x30] = none := by decide
/-- The reset state is a booted machine: the empty payload at the origin 0. -/
theorem test_reset_is_booted :
    boot Config.standard [] [] Turn.quiet [0, 0] = .ok State.reset := by rfl
/-- The word that `withFetchWord` places is the word fetched. -/
theorem test_withFetchWord :
    (State.reset.withFetchWord 16 0xF025).fetch.1 = 0xF025 ∧
      next? (State.reset.withFetchWord 16 0x12A5) ≠ none := by decide

/-! ### Memory -/

theorem test_memory_canonical :
    Memory.write (Memory.write (Memory.write [] 5 7) 3 1) 5 0 = [(3, 1)] ∧
      Memory.wf [(3, 1), (5, 0)] = false ∧ Memory.wf [(5, 1), (3, 1)] = false ∧
      Memory.wf [(65536, 1)] = false ∧ Memory.wf [(65535, 1)] = true := by decide

/-! ### Witnesses: for each obligation with hypotheses, data that meet all of them, clause by clause -/

/-- A turn in which the request fails. -/
def failing : Turn := { keys := [], fail := true }

/-- The reset state with the pending input `kbd`. -/
def typed (kbd : List Nat) : State := { State.reset with kbd := kbd }

theorem witness_DecodeEncodeRoundTrip :
    Instr.wf (.ldr .r7 .r0 0b100000#6) = true ∧ Instr.wf (.trapOther 15#4 0xFF#8) = true := by decide
theorem witness_EncodeDecodeKeepsUsedBits : opcodeField 0xF125 = 0b1111 ∧ opcodeField 0xD001 = 0b1101 ∧
    opcodeField 0x8001 = 0b1000 := by decide
theorem witness_IgnoredBitsHaveNoEffect :
    (0x9000#16 &&& usedBits (decode 0x9000) = 0x9015#16 &&& usedBits (decode 0x9000)) ∧
    (0xF020#16 &&& usedBits (decode 0xF020) = 0xFF20#16 &&& usedBits (decode 0xF020)) := by decide
theorem witness_StepRunsDecodedInstruction : State.reset.status = .running := rfl
theorem witness_TerminalStatusHolds :
    State.reset.halt.status ≠ .running ∧ (State.reset.raise .illegalOpcode 0).status ≠ .running := by decide
theorem witness_FetchAtKbsrPolls :
    ((typed [0x61]).setPc 0xFE00).status = .running ∧ ((typed [0x61]).setPc 0xFE00).pc = 0xFE00 ∧
      pendingInput ((typed [0x61]).setPc 0xFE00) = 0x61 :: [] ∧
      pendingInput ((typed []).setPc 0xFE00) = [] := by decide
theorem witness_SetccFollowsSign : (0x8000#16).getLsbD 15 = true ∧ (0x7FFF#16).getLsbD 15 = false ∧
    0x7FFF#16 ≠ 0 := by decide
theorem witness_AddRegisterMode : opcodeField 0x1042 = 0b0001 ∧ (0x1042#16).getLsbD 5 = false := by decide
theorem witness_AddImmediateMode : opcodeField 0x12A5 = 0b0001 ∧ (0x12A5#16).getLsbD 5 = true := by decide
theorem witness_AndRegisterMode : opcodeField 0x5042 = 0b0101 ∧ (0x5042#16).getLsbD 5 = false := by decide
theorem witness_AndImmediateMode : opcodeField 0x5020 = 0b0101 ∧ (0x5020#16).getLsbD 5 = true := by decide
theorem witness_NotInvertsSixteenBits : opcodeField 0x907F = 0b1001 := by decide
theorem witness_BrTestsMask : opcodeField 0x03FD = 0b0000 ∧ (0b001#3).getLsbD 0 = true ∧
    (State.reset.setcc 1).cond = .positive ∧
    ¬(((0b001#3).getLsbD 2 = true ∧ State.reset.cond = .negative) ∨
      ((0b001#3).getLsbD 1 = true ∧ State.reset.cond = .zero) ∨
      ((0b001#3).getLsbD 0 = true ∧ State.reset.cond = .positive)) := by decide
theorem witness_JmpTakesRegister : opcodeField 0xC1C0 = 0b1100 := by decide
theorem witness_JsrSavesReturnAddress : opcodeField 0x4801 = 0b0100 ∧ (0x4801#16).getLsbD 11 = true := by decide
theorem witness_JsrrReadsBaseAfterSave :
    opcodeField 0x41C0 = 0b0100 ∧ (0x41C0#16).getLsbD 11 = false := by decide
theorem witness_loads_and_stores : opcodeField 0x2000 = 0b0010 ∧ opcodeField 0xA004 = 0b1010 ∧
    opcodeField 0x6440 = 0b0110 ∧ opcodeField 0xE209 = 0b1110 ∧ opcodeField 0x3806 = 0b0011 ∧
    opcodeField 0xB806 = 0b1011 ∧ opcodeField 0x7A43 = 0b0111 := by decide
theorem witness_trap_words : opcodeField 0xFF20 = 0b1111 ∧ fieldVect 0xFF20 = 0x20 ∧ fieldVect 0xF021 = 0x21 ∧
    fieldVect 0xF022 = 0x22 ∧ fieldVect 0xF023 = 0x23 ∧ fieldVect 0xF024 = 0x24 ∧
    fieldVect 0xF025 = 0x25 := by decide
theorem witness_GetcReadsCharacter : (typed [0x1C3]).turn.fail = false ∧ pendingInput (typed [0x1C3]) = 0x1C3 :: [] ∧
    ({ typed [] with turns := [failing] } : State).turn.fail = true := by decide
theorem witness_OutEmitsLowByte : State.reset.turn.fail = false ∧
    ({ typed [] with lastTurn := failing } : State).turn.fail = true := by decide
/-- `A` in the last cell, `0x0100` in the first, R0 at the string. -/
def wrapping : State := withCells (State.reset.setReg .r0 0xFFFF) [(0xFFFF, 0x41), (0, 0x0100)]

/-- The second request fails. -/
def wrappingFails : State := { wrapping with turns := [Turn.quiet, failing] }

/-- `A` below KBSR, `B` above it, R0 at the first. -/
def around (kbd : List Nat) : State :=
  { withCells (State.reset.setReg .r0 0xFDFF) [(0xFDFF, 0x41), (0xFE01, 0x42)] with kbd := kbd }

/-- A key pending, and the request after the poll fails. -/
def aroundFails : State := { around [0x171] with turns := [Turn.quiet, Turn.quiet, failing] }

/-- The bytes PUTS emits for a word, as the statement gives them. -/
def putsOut (w : Word) : List Byte := [BitVec.ofNat 8 (w.toNat % 256)]

/-- The clauses `ends` (a string across the end of memory, and the empty string) and `fails` (at the last byte). -/
theorem witness_PutsPrintsString :
    (StringAt wrapping (wrapping.reg .r0) [0x41, 0x0100] ∧
      ∀ j < ([0x41, 0x0100].flatMap putsOut).length, (turnAt wrapping j).fail = false) ∧
    StringAt State.reset (State.reset.reg .r0) [] ∧
    (WordsAt wrappingFails (wrappingFails.reg .r0) [0x41, 0x0100] ∧
      1 < ([0x41, 0x0100].flatMap putsOut).length ∧ (∀ j < 1, (turnAt wrappingFails j).fail = false) ∧
      (turnAt wrappingFails 1).fail = true) := by
  simp only [StringAt, WordsAt]; decide

/-- The hypotheses that the three clauses of a poll share. -/
def Reaches0xFE00 (s : State) : Prop :=
  WordsAt s (s.reg .r0) [0x41] ∧ s.reg .r0 + BitVec.ofNat 16 ([0x41#16] : List Word).length = kbsrAddr ∧
    ∀ j < ([0x41].flatMap putsOut).length, (turnAt s j).fail = false

/-- The clause `pollsEmpty`. -/
theorem witness_PutsPrintsString_pollsEmpty : Reaches0xFE00 (around []) ∧
    (around []).kbd ++ arriving (around []) 0 (([0x41].flatMap putsOut).length + 1) = [] := by
  simp only [Reaches0xFE00, WordsAt]; decide

/-- The clause `pollsKey`, with the key itself, in KBDR, a word of the string. -/
theorem witness_PutsPrintsString_pollsKey : Reaches0xFE00 (around [0x171]) ∧
    (around [0x171]).kbd ++ arriving (around [0x171]) 0 (([0x41].flatMap putsOut).length + 1) = 0x171 :: [] ∧
    StringAt ((around [0x171]).memWrite 0xFE02 (BitVec.ofNat 16 (0x171 % 256))) 0xFE01 [0x42, 0x71] ∧
    ∀ j < (putsOut 0x8000 ++ [0x42, 0x71].flatMap putsOut).length,
      (turnAt (around [0x171]) (([0x41].flatMap putsOut).length + 1 + j)).fail = false := by
  simp only [Reaches0xFE00, StringAt, WordsAt]; decide

/-- The clause `pollsKeyFails`, at the first byte after the poll. -/
theorem witness_PutsPrintsString_pollsKeyFails : Reaches0xFE00 aroundFails ∧
    aroundFails.kbd ++ arriving aroundFails 0 (([0x41].flatMap putsOut).length + 1) = 0x171 :: [] ∧
    WordsAt (aroundFails.memWrite 0xFE02 (BitVec.ofNat 16 (0x171 % 256))) 0xFE01 [0x42, 0x71] ∧
    0 < (putsOut 0x8000 ++ [0x42, 0x71].flatMap putsOut).length ∧
    (turnAt aroundFails (([0x41].flatMap putsOut).length + 1 + 0)).fail = true := by
  simp only [Reaches0xFE00, WordsAt]; decide

/-- The clauses are those of PUTS; the two starts. -/
theorem witness_PutspPrintsPackedString :
    StringAt (withCells State.reset [(0, 0x6548), (1, 0x006C)]) 0 [0x6548, 0x006C] ∧
    (withCells State.reset [(0, 0x6548), (1, 0x006C)]).config.putspBase = .fixedZero ∧
    ({ around [0x171] with config := { resetCond := .zero, putspBase := .fromR0 } } : State).config.putspBase =
      .fromR0 := by
  simp only [StringAt, WordsAt]; decide
theorem witness_InReadsEchoesAndSetsFlags :
    (typed [0x7A]).turn.fail = false ∧ pendingInput (typed [0x7A]) = 0x7A :: [] ∧
      (typed [0x7A]).arrive.turn.fail = false ∧
      ({ typed [0x7A] with turns := [Turn.quiet, failing] } : State).turn.fail = false ∧
      pendingInput ({ typed [0x7A] with turns := [Turn.quiet, failing] } : State) = 0x7A :: [] ∧
      ({ typed [0x7A] with turns := [Turn.quiet, failing] } : State).arrive.turn.fail = true ∧
      ({ typed [0x7A] with turns := [failing] } : State).turn.fail = true := by decide
theorem witness_UndefinedVectorFaults : opcodeField 0xF01F = 0b1111 ∧ (fieldVect 0xF01F).toNat < 0x20 ∧
    opcodeField 0xF026 = 0b1111 ∧ 0x25 < (fieldVect 0xF026).toNat := by decide
theorem witness_ReservedOpcodeFaults : opcodeField 0xDFFF = 0b1101 := by decide
theorem witness_UndefinedOpcodeFaults : opcodeField 0x8FFF = 0b1000 := by decide
theorem witness_GetcAndInWait :
    (at' 0xF020 0x3000).status = .running ∧
      Waits (decode (at' 0xF020 0x3000).fetch.1) (at' 0xF020 0x3000).fetch.2 ∧
      Waits (decode (at' 0xF023 0x3000).fetch.1) (at' 0xF023 0x3000).fetch.2 :=
  ⟨rfl, ⟨⟨0, .inl (by decide)⟩, by decide, by decide⟩, ⟨⟨0, .inr (by decide)⟩, by decide, by decide⟩⟩
theorem witness_ScansEndOnFiniteInput : ((.trapPuts 0 : Instr) = .trapPuts 0 ∨ (.trapPuts 0 : Instr) = .trapPutsp 0) ∧
    (typed [0x41, 0x42]).lastTurn.keys = [] := ⟨.inl rfl, rfl⟩

/-- A memory in which every cell holds 1, from the address `lo` on, `n` cells long. -/
def ones : Nat → Nat → Memory
  | _, 0 => []
  | lo, n + 1 => (lo, 1#16) :: ones (lo + 1) n

theorem lookup_ones {lo n a : Nat} (h : lo ≤ a) (k : a < lo + n) : Memory.lookup a (ones lo n) = 1#16 := by
  induction n generalizing lo with
  | zero => omega
  | succ n ih =>
    simp only [ones, Memory.lookup]
    split
    · rfl
    · exact ih (by omega) (by omega)

/-- The first `n` cells are 1 and a key is always pending. -/
def filledState (n : Nat) : State :=
  { State.reset with mem := ones 0 n, lastTurn := { keys := [0x41], fail := false } }

theorem filledState_read {n : Nat} (hn : n = 65536) (a : Word) : (filledState n).mem.read a ≠ 0#16 := by
  have : (filledState n).mem.read a = 1#16 := lookup_ones (Nat.zero_le _) (by have := a.isLt; omega)
  rw [this]; decide

theorem filledState_hyps {n : Nat} (hn : n = 65536) : (∀ a : Word, (filledState n).mem.read a ≠ 0#16) ∧
    (filledState n).turns = [] ∧ (filledState n).lastTurn.fail = false ∧ (filledState n).lastTurn.keys ≠ [] ∧
    (∀ c ∈ (filledState n).kbd ++ (filledState n).lastTurn.keys, c % 256 ≠ 0) :=
  ⟨filledState_read hn, rfl, rfl, List.cons_ne_nil _ _, fun c h => by
    have : c = 0x41 := by simpa [filledState, State.reset] using h
    rw [this]; decide⟩

theorem filledState_puts {n : Nat} (hn : n = 65536) :
    exec (.trapPuts 0) (filledState n) = .fault .scanNeverEnds := by
  have h : ∀ k a, scan putsBytes k a (filledState n).trapEnter = .endless := fun k a =>
    scan_full_memory (s := (filledState n).trapEnter) (filledState_read hn) rfl rfl (List.cons_ne_nil _ _)
      (fun c hc => by
        have : c = 0x41 := by simpa [filledState, State.reset] using hc
        rw [this]; decide)
  simp only [exec, execTrapPuts, h, finishScan]

/-- Every one of the 65536 cells is non-zero (`filledState 65536`). -/
theorem witness_ScanOfFullMemoryIsEndless : ∃ s : State, (∀ a : Word, s.mem.read a ≠ 0#16) ∧ s.turns = [] ∧
    s.lastTurn.fail = false ∧ s.lastTurn.keys ≠ [] ∧ (∀ c ∈ s.kbd ++ s.lastTurn.keys, c % 256 ≠ 0) :=
  ⟨_, filledState_hyps rfl⟩
theorem witness_EndlessScanNeedsFullMemory : ∃ s : State, exec (.trapPuts 0) s = .fault .scanNeverEnds :=
  ⟨_, filledState_puts rfl⟩
theorem witness_MemReadPollsKeyboard : (0xFE02#16 : Word) ≠ 0xFE00 ∧ pendingInput (typed [0x61]) = 0x61 :: [] ∧
    pendingInput ({ typed [] with turns := [{ keys := [0x62], fail := false }] } : State) = 0x62 :: [] ∧
    pendingInput (typed []) = [] := by decide
theorem witness_SecondKbsrReadReportsNextKey : (typed [1, 2]).kbd = 1 :: [2] ∧ (typed [1, 2]).turns = [] ∧
    (typed [1, 2]).lastTurn.keys = [] ∧ (typed [1]).kbd = 1 :: [] := by decide
theorem witness_OnlyListedRegistersChange : ∃ t, exec (.jsrr .r2) State.reset = .next t := ⟨_, rfl⟩
theorem witness_OnlyListedInstructionsSetFlags :
    ∃ t, exec (.trapGetc 0) (typed [0x41]) = .next t ∧ setsCond (.trapGetc 0) = false := ⟨_, rfl, rfl⟩
theorem witness_PcAfterEachInstruction :
    (∃ t, exec (.jmp .r3) State.reset = .next t) ∧ ¬Waits (.jmp .r3) State.reset ∧
    (∃ t, exec (.trapGetc 0) State.reset = .next t) ∧ Waits (.trapGetc 0) State.reset ∧
    (∃ t, exec (.trapGetc 0) (typed [0x41]) = .next t) ∧ ¬Waits (.trapGetc 0) (typed [0x41]) := by
  refine ⟨⟨_, rfl⟩, ?_, ⟨_, rfl⟩, ⟨⟨0, .inl rfl⟩, rfl, rfl⟩, ⟨_, rfl⟩, ?_⟩
  · rintro ⟨⟨ign, h | h⟩, -⟩ <;> cases h
  · rintro ⟨-, -, h⟩; cases h
theorem witness_MemoryChangesOnlyByStores :
    (∃ t, exec (.st .r0 4) State.reset = .next t) ∧ (5#16 : Word) ≠ 0xFE00 ∧ (5#16 : Word) ≠ 0xFE02 ∧
      ∀ v, storeOf (.st .r0 4) State.reset ≠ some (5, v) := by
  refine ⟨⟨_, rfl⟩, by decide, by decide, fun v h => ?_⟩
  have h4 : State.reset.pcRel9 4 = 5#16 := (Prod.mk.inj (Option.some.inj h)).1
  exact absurd h4 (by decide)
theorem witness_ConsoleOnlyGrows : ∃ t, exec (.trapOut 0) State.reset = .next t := ⟨_, rfl⟩
theorem witness_OnlyHaltHalts : ∃ t, (at' 0xF025 0x3000).status = .running ∧ step (at' 0xF025 0x3000) = .next t ∧
    t.status = .halted := ⟨_, rfl, rfl, rfl⟩
theorem witness_OnlyListedConditionsFault :
    (∃ t, step (at' 0xD000 0x3000) = .next t ∧ t.status = .faulted) ∧
    (∃ t, step (at' 0xF000 0x3000) = .next t ∧ t.status = .faulted) ∧
    (∃ t, step { at' 0xF020 0x3000 with lastTurn := failing } = .next t ∧ t.status = .faulted) ∧
    (∃ t, step { at' 0xF021 0x3000 with lastTurn := failing } = .next t ∧ t.status = .faulted) :=
  ⟨⟨_, rfl, rfl⟩, ⟨_, rfl, rfl⟩, ⟨_, rfl, rfl⟩, ⟨_, rfl, rfl⟩⟩
theorem witness_KeyboardFreeInstructionsIgnoreInput :
    (KeyboardFree (.ldi .r1 3) State.reset ∧ ∃ t, exec (.ldi .r1 3) State.reset = .next t) ∧
    (KeyboardFree (.addReg .r0 .r0 .r0) State.reset ∧
      ∃ t, exec (.addReg .r0 .r0 .r0) State.reset = .next t) := by
  exact ⟨⟨⟨by decide, by decide⟩, _, rfl⟩, trivial, _, rfl⟩
theorem witness_NextFetchSeesStore :
    ∃ t, storeOf (.st .r0 0) ((State.reset.setPc 0x3001).setReg .r0 0xF025) = some (0x3001, 0xF025) ∧
      exec (.st .r0 0) ((State.reset.setPc 0x3001).setReg .r0 0xF025) = .next t ∧ t.pc = 0x3001 ∧
      (0x3001#16 : Word) ≠ 0xFE00 := ⟨_, by decide, rfl, rfl, by decide⟩
theorem witness_StepKeepsInvariant :
    Inv (at' 0xD000 0x3000) ∧ ∃ t, step (at' 0xD000 0x3000) = .next t :=
  ⟨⟨by decide, by decide, fun r h => by cases h⟩, _, rfl⟩
theorem witness_BootedRunsKeepInvariant :
    ∃ s t, boot Config.standard [] [] Turn.quiet [0x30, 0x00, 0xF0, 0x25] = .ok s ∧ Reaches 1 s t :=
  ⟨_, _, rfl, rfl⟩
theorem witness_BootedStateValues :
    ∃ s, parseImage [0x30, 0x00, 0xF0, 0x25] = .ok { origin := 0x3000, words := [0xF025] } ∧
      boot Config.standard [] [] Turn.quiet [0x30, 0x00, 0xF0, 0x25] = .ok s := ⟨_, rfl, rfl⟩
theorem witness_ImageFormatIsBigEndian :
    parseImage [0x30, 0x00, 0x12, 0xA5] = .ok { origin := 0x3000, words := [0x12A5] } ∧
      (0 < ([0x12A5#16] : List Word).length) ∧ ([0x30, 0x00, 0x12, 0xA5] : List Byte)[2 * 0 + 2]? = some 0x12 ∧
      ([0x30, 0x00, 0x12, 0xA5] : List Byte)[2 * 0 + 3]? = some 0xA5 := ⟨rfl, by decide, rfl, rfl⟩

end Sys2Proof.Tests
end

section
/-! PROOFS. Sign extension of the operand fields (00_scope.md R10, 30_encoding.md R82) and the word of a
character (R35), as numbers. -/

namespace Sys2Proof.Proofs
open Sys2Proof Sys2Proof.Machine

/-- R10 for every field that fits in a word: a set sign bit adds the `2 ^ 16 - 2 ^ n` of the upper bits. -/
theorem sext_toNat {n : Nat} (hn : n ≤ 16) (f : BitVec n) :
    (sext f).toNat = if f.toNat < 2 ^ (n - 1) then f.toNat else f.toNat + 65536 - 2 ^ n := by
  have hpow : 2 ^ n ≤ 2 ^ 16 := Nat.pow_le_pow_right (by decide) hn
  rw [sext, BitVec.toNat_signExtend, BitVec.toNat_setWidth_of_le hn, BitVec.msb_eq_decide]
  by_cases hpos : f.toNat < 2 ^ (n - 1)
  · simp [hpos]
  · have hneg : 2 ^ (n - 1) ≤ f.toNat := Nat.not_lt.mp hpos
    simp only [hpos, hneg, decide_true, if_true, if_false]
    omega

@[simp] theorem charWord_toNat (c : Nat) : (charWord c).toNat = c % 256 := by
  rw [charWord, BitVec.toNat_setWidth_of_le (by decide), BitVec.toNat_ofNat]

/-- Settles O11: the four widths are instances of `sext_toNat`. -/
theorem signExtensionIsExact : Obligations.SignExtensionIsExact :=
  ⟨sext_toNat (by decide), sext_toNat (by decide), sext_toNat (by decide), sext_toNat (by decide),
    charWord_toNat⟩

end Sys2Proof.Proofs
end

section
/-! PROOFS. What one instruction can do to the state. `Frame` is all that the ordinary operations of an
instruction may change, with one rule for each operation; `Completes` adds the two ways a run ends, HALT and a
fatal condition. `exec_completes` goes through the 25 rows once, and the rules about every instruction
(10_state.md R21, R27, R36) are read off it. -/

namespace Sys2Proof.Proofs
open Sys2Proof Sys2Proof.Machine

/-- What instruction `i` may have changed from `s` to `t` before its run ends, if it does: the registers that
R21 gives it, the flags if R27 lists it, `pc`, the environment, `CON` by growing, and memory in canonical form. -/
structure Frame (i : Instr) (s t : State) : Prop where
  regs : KeepsOthers s t (writesRegs i)
  cond : setsCond i = false → t.cond = s.cond
  con : s.con <+: t.con
  wf : s.mem.wf = true → t.mem.wf = true
  status : t.status = s.status
  faultRecord : t.faultRecord = s.faultRecord

namespace Frame

variable {i : Instr} {s t u : State}

theorem refl (i : Instr) (s : State) : Frame i s s where
  regs := fun _ _ => rfl
  cond := fun _ => rfl
  con := List.prefix_rfl
  wf := id
  status := rfl
  faultRecord := rfl

theorem bus (h : Frame i s t) (b : BusStep t u) : Frame i s u where
  regs := fun r hr => by rw [State.reg_eq, b.regs, ← State.reg_eq, h.regs r hr]
  cond := fun hc => b.cond.trans (h.cond hc)
  con := h.con.trans b.con
  wf := fun w => b.wf (h.wf w)
  status := b.status.trans h.status
  faultRecord := b.faultRecord.trans h.faultRecord

theorem setReg (h : Frame i s t) {r : Reg} (v : Word) (hr : r ∈ writesRegs i) : Frame i s (t.setReg r v) :=
  { h with regs := fun q hq =>
      (t.setReg_reg_other v (ne_of_mem_of_not_mem hr hq).symm).trans (h.regs q hq) }

theorem setcc (h : Frame i s t) (v : Word) (hc : setsCond i = true) : Frame i s (t.setcc v) :=
  { h with cond := fun hn => absurd hc (by simp [hn]) }

theorem setResult (h : Frame i s t) {r : Reg} (v : Word) (hr : r ∈ writesRegs i) (hc : setsCond i = true) :
    Frame i s (t.setResult r v) :=
  (h.setReg v hr).setcc v hc

theorem setPc (h : Frame i s t) (v : Word) : Frame i s (t.setPc v) := { h with }

theorem memWrite (h : Frame i s t) (a v : Word) : Frame i s (t.memWrite a v) :=
  { h with wf := fun w => memWrite_wf a v (h.wf w) }

theorem trapEnter (h : Frame i s t) (hr : .r7 ∈ writesRegs i) : Frame i s t.trapEnter := h.setReg t.pc hr

/-- The loads share one bus read and one result (42_load_store.md R137). -/
theorem load (h : Frame i s t) {r : Reg} (ea : Word) (hr : r ∈ writesRegs i) (hc : setsCond i = true) :
    Frame i s (t.load r ea) :=
  (h.bus (memRead_bus t ea)).setResult _ hr hc

theorem kbdRead {x : KbdAnswer} (h : Frame i s t) (e : t.kbdRead = (x, u)) : Frame i s u :=
  h.bus (by simpa only [e] using kbdRead_bus t)

theorem conOut {b : Byte} {ok : Bool} (h : Frame i s t) (e : t.conOut b = (ok, u)) : Frame i s u :=
  h.bus (by simpa only [e] using conOut_bus t b)

end Frame

/-- The fatal conditions that the list of 60_exceptions.md R180 gives an instruction. -/
def causesOf : Instr → List Cause
  | .trapGetc _ => [.ioError .kbd]
  | .trapOut _ | .trapPuts _ | .trapPutsp _ => [.ioError .con]
  | .trapIn _ => [.ioError .kbd, .ioError .con]
  | .trapOther _ _ => [.invalidTrapVector]
  | .res _ | .undef1000 _ => [.illegalOpcode]
  | _ => []

/-- How instruction `i` can leave `s`: the run goes on, or its last action is `halt` (TRAP `0x25` alone, R156)
or `raise` with a cause that R180 gives it. -/
inductive Completes (i : Instr) (s : State) : State → Prop where
  | goesOn {t : State} (h : Frame i s t) : Completes i s t
  | halts {t : State} {ign : BitVec 4} (h : Frame i s t) (hi : i = .trapHalt ign) : Completes i s t.halt
  | raises {t : State} {cause : Cause} (h : Frame i s t) (hc : cause ∈ causesOf i) :
      Completes i s (t.raise cause (encode i))

section

variable {i : Instr} {s t : State}

/-- PUTS and PUTSP: whatever the scan reads and prints, it is bus steps after the entry of the trap. -/
theorem finishScan_completes {bytes : Word → List Byte} {n : Nat} {a : Word} (hr : .r7 ∈ writesRegs i)
    (hc : .ioError .con ∈ causesOf i)
    (h : finishScan (encode i) (scan bytes n a s.trapEnter) = .next t) : Completes i s t := by
  have entered : Frame i s s.trapEnter := (Frame.refl i s).trapEnter hr
  cases e : scan bytes n a s.trapEnter with
  | done u =>
    rw [e] at h; cases h
    exact .goesOn (entered.bus (scan_bus (.inl e)))
  | failed u =>
    rw [e] at h; cases h
    exact .raises (entered.bus (scan_bus (.inr e))) hc
  | endless => rw [e] at h; cases h

theorem execTrapGetc_completes {ign : BitVec 4} (h : execTrapGetc ign s = .next t) :
    Completes (.trapGetc ign) s t := by
  unfold execTrapGetc at h
  split at h
  case h_1 u e => cases h; exact .goesOn (((Frame.refl _ s).kbdRead e).setPc _)
  case h_2 u e =>
    cases h
    exact .raises (((Frame.refl _ s).kbdRead e).trapEnter (by simp [writesRegs])) (by simp [causesOf])
  case h_3 c u e =>
    cases h
    exact .goesOn ((((Frame.refl _ s).kbdRead e).trapEnter (by simp [writesRegs])).setReg _
      (by simp [writesRegs]))

theorem execTrapOut_completes {ign : BitVec 4} (h : execTrapOut ign s = .next t) :
    Completes (.trapOut ign) s t := by
  have entered : Frame (.trapOut ign) s s.trapEnter := (Frame.refl _ s).trapEnter (by simp [writesRegs])
  unfold execTrapOut at h
  split at h
  case h_1 u e => cases h; exact .goesOn (entered.conOut e)
  case h_2 u e => cases h; exact .raises (entered.conOut e) (by simp [causesOf])

theorem execTrapIn_completes {ign : BitVec 4} (h : execTrapIn ign s = .next t) :
    Completes (.trapIn ign) s t := by
  unfold execTrapIn at h
  split at h
  case h_1 u e => cases h; exact .goesOn (((Frame.refl _ s).kbdRead e).setPc _)
  case h_2 u e =>
    cases h
    exact .raises (((Frame.refl _ s).kbdRead e).trapEnter (by simp [writesRegs])) (by simp [causesOf])
  case h_3 c u e =>
    have stored : Frame (.trapIn ign) s (u.trapEnter.setReg .r0 (charWord c)) :=
      (((Frame.refl _ s).kbdRead e).trapEnter (by simp [writesRegs])).setReg _ (by simp [writesRegs])
    split at h
    case h_1 v e' => cases h; exact .goesOn ((stored.conOut e').setcc _ rfl)
    case h_2 v e' => cases h; exact .raises (stored.conOut e') (by simp [causesOf])

/-- What an instruction can do: it completes within its frame, or halts or faults as R156 and R180 allow. -/
theorem exec_completes (h : exec i s = .next t) : Completes i s t := by
  have start : Frame i s s := Frame.refl i s
  cases i with
  | addReg | addImm | andReg | andImm | not | lea =>
    cases h; exact .goesOn (start.setResult _ (by simp [writesRegs]) rfl)
  | br mask off9 =>
    cases h
    split
    · exact .goesOn (start.setPc _)
    · exact .goesOn start
  | jmp => cases h; exact .goesOn (start.setPc _)
  | jsr | jsrr => cases h; exact .goesOn ((start.trapEnter (by simp [writesRegs])).setPc _)
  | ld | ldr => cases h; exact .goesOn (start.load _ (by simp [writesRegs]) rfl)
  | ldi => cases h; exact .goesOn ((start.bus (memRead_bus s _)).load _ (by simp [writesRegs]) rfl)
  | st | str => cases h; exact .goesOn (start.memWrite _ _)
  | sti => cases h; exact .goesOn ((start.bus (memRead_bus s _)).memWrite _ _)
  | trapGetc => exact execTrapGetc_completes h
  | trapOut => exact execTrapOut_completes h
  | trapPuts | trapPutsp => exact finishScan_completes (by simp [writesRegs]) (by simp [causesOf]) h
  | trapIn => exact execTrapIn_completes h
  | trapHalt => cases h; exact .halts (start.trapEnter (by simp [writesRegs])) rfl
  | trapOther => cases h; exact .raises (start.trapEnter (by simp [writesRegs])) (by simp [causesOf])
  | res | undef1000 => cases h; exact .raises start (by simp [causesOf])

namespace Completes

theorem regs (h : Completes i s t) : KeepsOthers s t (writesRegs i) := by
  cases h with | goesOn h | halts h | raises h => exact h.regs

theorem cond (h : Completes i s t) : setsCond i = false → t.cond = s.cond := by
  cases h with | goesOn h | halts h | raises h => exact h.cond

theorem con (h : Completes i s t) : s.con <+: t.con := by
  cases h with | goesOn h | halts h | raises h => exact h.con

end Completes

end

/-- Settles O44: `exec_completes`. -/
theorem onlyListedRegistersChange : Obligations.OnlyListedRegistersChange :=
  fun _ _ _ h => (exec_completes h).regs

/-- Settles O45: `exec_completes`. -/
theorem onlyListedInstructionsSetFlags : Obligations.OnlyListedInstructionsSetFlags :=
  fun _ _ _ h => (exec_completes h).cond

/-- Settles O48: `exec_completes`; `CON` changes by `ConOut` alone. -/
theorem consoleOnlyGrows : Obligations.ConsoleOnlyGrows :=
  fun _ _ _ h => (exec_completes h).con

end Sys2Proof.Proofs
end

section
/-! PROOFS. What the decoder answers: a well-formed instruction with the opcode of the word (30_encoding.md R88);
and the fields that a fault record reads off an encoded word (10_state.md R32). -/

namespace Sys2Proof.Proofs
open Sys2Proof Sys2Proof.Machine

theorem decodeTrap_wf (ign : BitVec 4) (v : BitVec 8) : (decodeTrap ign v).wf = true := by
  by_cases hv : definedVector v = true
  · obtain rfl | rfl | rfl | rfl | rfl | rfl := (definedVector_iff v).1 hv <;> rfl
  · have hne := mt (definedVector_iff v).2 hv
    push Not at hne
    obtain ⟨h20, h21, h22, h23, h24, h25⟩ := hne
    simp [decodeTrap, Instr.wf, h20, h21, h22, h23, h24, h25, hv]

/-- No word decodes to a TRAP with a defined vector in the catch-all row (R88). -/
theorem decode_wf (w : Word) : (decode w).wf = true := by
  unfold decode
  split
  case h_16 => exact decodeTrap_wf _ _
  case h_2 | h_5 | h_6 => split <;> rfl
  all_goals rfl

@[simp] theorem decodeTrap_opcode (ign : BitVec 4) (v : BitVec 8) : (decodeTrap ign v).opcode = 0b1111#4 := by
  unfold decodeTrap
  split_ifs <;> rfl

/-- `IR[15:12]` bit by bit, as `decode` tests it (R80, R88). -/
theorem opcodeField_eq_bits (w : Word) : opcodeField w =
    BitVec.ofBool (w.getLsbD 15) ++ BitVec.ofBool (w.getLsbD 14) ++ BitVec.ofBool (w.getLsbD 13) ++
      BitVec.ofBool (w.getLsbD 12) :=
  extractLsb'_eq_of_bits fun i hi => by interval_cases i <;> simp only [BitVec.getLsbD_append] <;> simp

/-- The decoder goes by the opcode field (R88). -/
theorem decode_opcode (w : Word) : (decode w).opcode = opcodeField w := by
  rw [opcodeField_eq_bits]
  unfold decode
  split <;> rename_i h15 h14 h13 h12 <;> rw [h15, h14, h13, h12]
  case h_2 | h_5 | h_6 => split <;> rfl
  case h_16 => exact decodeTrap_opcode _ _
  all_goals rfl

/-- Opcode `1111` selects a TRAP row by the vector (R88, R150). -/
theorem decode_of_trap {w : Word} (h : opcodeField w = 0b1111#4) :
    decode w = decodeTrap (fieldIgn4 w) (fieldVect w) := by
  obtain ⟨h15, h14, h13, h12⟩ := bits_of_opcodeField h
  simp only [decode, h15, h14, h13, h12]
  rfl

theorem decodeTrap_eq_trapHalt {ign ign' : BitVec 4} {v : BitVec 8}
    (h : decodeTrap ign v = .trapHalt ign') : v = 0x25#8 := by
  unfold decodeTrap at h
  split_ifs at h
  assumption

/-- HALT is the word of opcode `1111` and vector `0x25` (R85). -/
theorem fields_of_decode_eq_trapHalt {w : Word} {ign : BitVec 4} (h : decode w = .trapHalt ign) :
    opcodeField w = 0b1111#4 ∧ fieldVect w = 0x25#8 := by
  have hop : opcodeField w = 0b1111#4 := by rw [← decode_opcode, h]; rfl
  exact ⟨hop, decodeTrap_eq_trapHalt ((decode_of_trap hop).symm.trans h)⟩

/-- The rows of `Laws.EncodeOpcode` together: `IR[15:12]` of an encoded word is the opcode number (R90). -/
@[simp] theorem opcodeField_encode : ∀ i : Instr, opcodeField (encode i) = i.opcode
  | .addReg .. => Laws.EncodeOpcode.addReg ..
  | .addImm .. => Laws.EncodeOpcode.addImm ..
  | .andReg .. => Laws.EncodeOpcode.andReg ..
  | .andImm .. => Laws.EncodeOpcode.andImm ..
  | .not .. => Laws.EncodeOpcode.not ..
  | .br .. => Laws.EncodeOpcode.br ..
  | .jmp .. => Laws.EncodeOpcode.jmp ..
  | .jsr .. => Laws.EncodeOpcode.jsr ..
  | .jsrr .. => Laws.EncodeOpcode.jsrr ..
  | .ld .. => Laws.EncodeOpcode.ld ..
  | .ldi .. => Laws.EncodeOpcode.ldi ..
  | .ldr .. => Laws.EncodeOpcode.ldr ..
  | .lea .. => Laws.EncodeOpcode.lea ..
  | .st .. => Laws.EncodeOpcode.st ..
  | .sti .. => Laws.EncodeOpcode.sti ..
  | .str .. => Laws.EncodeOpcode.str ..
  | .trapGetc .. => Laws.EncodeOpcode.trapGetc ..
  | .trapOut .. => Laws.EncodeOpcode.trapOut ..
  | .trapPuts .. => Laws.EncodeOpcode.trapPuts ..
  | .trapIn .. => Laws.EncodeOpcode.trapIn ..
  | .trapPutsp .. => Laws.EncodeOpcode.trapPutsp ..
  | .trapHalt .. => Laws.EncodeOpcode.trapHalt ..
  | .trapOther .. => Laws.EncodeOpcode.trapOther ..
  | .res .. => Laws.EncodeOpcode.res ..
  | .undef1000 .. => Laws.EncodeOpcode.undef1000 ..

/-! `IR[7:0]` of an encoded TRAP is its vector (R82). -/

@[simp] theorem fieldVect_encode_trapGetc (ign : BitVec 4) : fieldVect (encode (.trapGetc ign)) = 0x20#8 :=
  BitVec.extractLsb'_append_eq_right
@[simp] theorem fieldVect_encode_trapOut (ign : BitVec 4) : fieldVect (encode (.trapOut ign)) = 0x21#8 :=
  BitVec.extractLsb'_append_eq_right
@[simp] theorem fieldVect_encode_trapPuts (ign : BitVec 4) : fieldVect (encode (.trapPuts ign)) = 0x22#8 :=
  BitVec.extractLsb'_append_eq_right
@[simp] theorem fieldVect_encode_trapIn (ign : BitVec 4) : fieldVect (encode (.trapIn ign)) = 0x23#8 :=
  BitVec.extractLsb'_append_eq_right
@[simp] theorem fieldVect_encode_trapPutsp (ign : BitVec 4) : fieldVect (encode (.trapPutsp ign)) = 0x24#8 :=
  BitVec.extractLsb'_append_eq_right
@[simp] theorem fieldVect_encode_trapOther (ign : BitVec 4) (v : BitVec 8) :
    fieldVect (encode (.trapOther ign v)) = v :=
  BitVec.extractLsb'_append_eq_right

/-- A fault that R180 lists for a well-formed instruction has a record that fits its cause. -/
theorem consistentRecord_of_causesOf {i : Instr} {cause : Cause} (hi : i.wf = true)
    (hc : cause ∈ causesOf i) (pc : Word) :
    consistentRecord { cause := cause, ir := encode i, faultPc := pc } = true := by
  cases i with
  | trapGetc | trapOut | trapPuts | trapPutsp | res | undef1000 =>
    obtain rfl := List.mem_singleton.1 hc
    simp [consistentRecord, FaultRecord.opcode, FaultRecord.vector, Instr.opcode]
  | trapIn =>
    obtain rfl | rfl := List.mem_pair.1 hc <;>
      simp [consistentRecord, FaultRecord.opcode, FaultRecord.vector, Instr.opcode]
  | trapOther =>
    obtain rfl := List.mem_singleton.1 hc
    simpa [consistentRecord, FaultRecord.opcode, FaultRecord.vector, Instr.opcode, Instr.wf] using hi
  | _ => cases hc

end Sys2Proof.Proofs
end

section
/-! PROOFS. The step and the invariant (10_state.md R31, R32): every step keeps it, so every run from a booted
machine (70_reset_and_hazards.md R210) does. -/

namespace Sys2Proof.Proofs
open Sys2Proof Sys2Proof.Machine

section

variable {i : Instr} {s t : State}

/-- A step of a running machine is what the decoded instruction can do, from the state after the fetch (R217). -/
theorem step_completes (hs : s.status = .running) (h : step s = .next t) :
    Completes (decode s.fetch.1) s.fetch.2 t := by
  unfold step at h
  rw [hs] at h
  exact exec_completes h

theorem step_terminal (hs : s.status ≠ .running) : step s = .next s := by
  unfold step
  split
  · contradiction
  · rfl
  · rfl

/-- While the run goes on, the invariant asks for canonical memory and no record. -/
theorem inv_of_running (hw : s.mem.wf = true) (hs : s.status = .running) (hf : s.faultRecord = none) : Inv s where
  memory := hw
  recorded := by simp [hf, hs]
  consistent := by simp [hf]

/-- An instruction that starts in a running state without a fault record keeps the invariant. -/
theorem Completes.inv (h : Completes i s t) (hi : i.wf = true) (hw : s.mem.wf = true)
    (hs : s.status = .running) (hf : s.faultRecord = none) : Inv t := by
  cases h with
  | goesOn h => exact inv_of_running (h.wf hw) (h.status.trans hs) (h.faultRecord.trans hf)
  | halts h =>
    have hn := h.faultRecord.trans hf
    exact { memory := h.wf hw, recorded := by simp [hn], consistent := by simp [hn] }
  | raises h hc =>
    refine { memory := h.wf hw, recorded := by simp, consistent := fun r hr => ?_ }
    obtain rfl := Option.some.inj hr
    exact ⟨consistentRecord_of_causesOf hi hc _, rfl⟩

theorem step_inv (hs : Inv s) (h : step s = .next t) : Inv t := by
  by_cases hr : s.status = .running
  · have hn : s.faultRecord = none := by simpa [hr] using hs.recorded
    have fetched := fetch_bus s
    exact (step_completes hr h).inv (decode_wf _) (fetched.wf hs.memory) (fetched.status.trans hr)
      (fetched.faultRecord.trans hn)
  · rw [step_terminal hr] at h
    cases h
    exact hs

/-- A run of `k + 1` steps is a step and a run of `k` steps. -/
theorem reaches_succ {k : Nat} (h : Reaches (k + 1) s t) : ∃ u, step s = .next u ∧ Reaches k u t := by
  simp only [Reaches, Host.Core.run] at h
  split at h
  · next u hu => exact ⟨u, hu, h⟩
  · cases h
  · cases h

/-- Runs keep what every step keeps. -/
theorem reaches_inv {k : Nat} (hs : Inv s) (h : Reaches k s t) : Inv t := by
  induction k generalizing s with
  | zero => cases h; exact hs
  | succ k ih =>
    obtain ⟨u, hu, hrun⟩ := reaches_succ h
    exact ih (step_inv hs hu) hrun

end

/-- Settles O54: the step is one instruction, and its `Completes` decides the record. -/
theorem stepKeepsInvariant : Obligations.StepKeepsInvariant := fun _ _ => step_inv

/-- Settles O49: of the ways an instruction can complete only `halt` ends HALTED, and it is TRAP `0x25`'s. -/
theorem onlyHaltHalts : Obligations.OnlyHaltHalts := by
  intro s t hs h ht
  cases step_completes hs h with
  | goesOn h =>
    have : t.status = .running := h.status.trans ((fetch_bus s).status.trans hs)
    rw [this] at ht
    cases ht
  | halts h hi => exact fields_of_decode_eq_trapHalt hi
  | raises h hc => cases ht

/-- Settles O55: memory is empty and there is no record. -/
theorem resetMeetsInvariant : Obligations.ResetMeetsInvariant := inv_of_running rfl rfl rfl

end Sys2Proof.Proofs
end

section
/-! PROOFS. Reset, load and run (10_state.md R40, 70_reset_and_hazards.md R210 to R216). -/

namespace Sys2Proof.Proofs
open Sys2Proof Sys2Proof.Machine

/-- A boot that is accepted stores the image's words, which fit, into the state after reset, and starts at its
origin. -/
theorem boot_eq_ok {cfg : Config} {kbd : List Nat} {turns : List Turn} {lastTurn : Turn} {bytes : List Byte}
    {s : State} (h : boot cfg kbd turns lastTurn bytes = .ok s) :
    ∃ img, parseImage bytes = .ok img ∧ img.origin.toNat + img.words.length ≤ 65536 ∧
      s = (((powerOn cfg kbd turns lastTurn).storeWords img.origin img.words).setPc img.origin).run := by
  unfold boot at h
  split at h
  · cases h
  · next img himg =>
    unfold State.loadImage at h
    split_ifs at h with hfits
    cases h
    exact ⟨img, himg, hfits, rfl⟩

/-- Settles O56: reset and load meet the invariant, and every step keeps it. -/
theorem bootedRunsKeepInvariant : Obligations.BootedRunsKeepInvariant := by
  intro cfg kbd turns lastTurn bytes s t k hboot
  obtain ⟨img, -, -, rfl⟩ := boot_eq_ok hboot
  refine reaches_inv (inv_of_running (State.storeWords_wf _ _ rfl) rfl ?_)
  exact congrArg State.faultRecord (State.storeWords_frame _ _ _)

/-- Settles O58: the plain stores of the image change nothing but its cells. -/
theorem bootedStateValues : Obligations.BootedStateValues := by
  intro cfg kbd turns lastTurn bytes img s hparse hboot
  obtain ⟨img', hparse', hfits, rfl⟩ := boot_eq_ok hboot
  obtain rfl : img = img' := Except.ok.inj (hparse.symm.trans hparse')
  have frame := State.storeWords_frame (powerOn cfg kbd turns lastTurn) img.origin img.words
  have keeps {α : Type} (f : State → α) := congrArg f frame
  refine ⟨fun r => ?_, rfl, keeps State.cond, rfl, fun k hk => State.storeWords_read (by omega) k hk,
    fun a ha => State.storeWords_read_other ha, rfl, keeps State.faultRecord, keeps State.con, keeps State.kbd⟩
  calc (((powerOn cfg kbd turns lastTurn).storeWords img.origin img.words).reg r)
      _ = (powerOn cfg kbd turns lastTurn).reg r := keeps (·.reg r)
      _ = 0#16 := by cases r <;> rfl

/-- Settles O10: the bit test of `condOf`. -/
theorem setccFollowsSign : Obligations.SetccFollowsSign := by
  intro s v
  refine ⟨fun h => ?_, fun h => ?_, fun h hz => ?_, rfl⟩
  · rw [State.setcc_cond, condOf, if_pos h]
  · rw [h]; rfl
  · rw [State.setcc_cond, condOf, if_neg (by rw [h]; decide), if_neg hz]

end Sys2Proof.Proofs
end

section
/-! PROOFS. The bus and the keyboard registers (20_memory.md R52 to R55): a read of `0xFE00` polls, also when it is
a pointer read or a fetch; every other read and every write is plain. -/

namespace Sys2Proof.Proofs
open Sys2Proof Sys2Proof.Machine

/-- `zext_8` of a code is its value modulo 256 (R10). -/
theorem charWord_eq_ofNat (c : Nat) : charWord c = BitVec.ofNat 16 (c % 256) :=
  BitVec.eq_of_toNat_eq (by rw [charWord_toNat, BitVec.toNat_ofNat]; omega)

/-! ### One access -/

theorem memWrite_read_same (s : State) (a v : Word) : (s.memWrite a v).mem.read a = v :=
  s.mem.read_write_same a v

theorem memWrite_read_other (s : State) {a b : Word} (v : Word) (h : b ≠ a) :
    (s.memWrite a v).mem.read b = s.mem.read b :=
  s.mem.read_write_other v h

/-- Settles O43: read after write, at the address and elsewhere. -/
theorem memWriteIsPlain : Obligations.MemWriteIsPlain := fun s a v =>
  ⟨memWrite_read_same s a v, fun _ hb => memWrite_read_other s v hb, rfl⟩

/-- Settles O41: the poll finds a character or none, and then latches KBSR and KBDR, or KBSR alone. -/
theorem memReadPollsKeyboard : Obligations.MemReadPollsKeyboard := by
  refine ⟨fun s a ha => memRead_plain ha, fun s c rest hp => ?_, fun s hp => ?_⟩
  · refine ⟨_, memRead_kbsr_ready hp, ?_, ?_, fun a h0 h2 => ?_, rfl⟩
    · exact (memWrite_read_other _ _ (by decide)).trans (memWrite_read_same _ _ _)
    · exact (memWrite_read_same _ _ _).trans (charWord_eq_ofNat c)
    · exact (memWrite_read_other _ _ h2).trans (memWrite_read_other _ _ h0)
  · refine ⟨_, memRead_kbsr_empty hp, memWrite_read_same _ _ _, fun a h0 => memWrite_read_other _ _ h0, ?_⟩
    rw [← hp]; rfl

/-! ### Polls in a row, and the poll of a fetch -/

/-- With no more keys to come, the pending input is `KBD` as it stands. -/
theorem pendingInput_of_noArrivals {s : State} (ht : s.turns = []) (hl : s.lastTurn.keys = []) :
    pendingInput s = s.kbd := by
  simp [pendingInput, State.turn, ht, hl]

/-- Settles O42: two polls in a row, each by O41; reads of `0xFE02` are plain. -/
theorem secondKbsrReadReportsNextKey : Obligations.SecondKbsrReadReportsNextKey := by
  obtain ⟨plain, ready, empty⟩ := memReadPollsKeyboard
  intro s c rest hkbd hturns hlast
  obtain ⟨t, hread, -, hchar, -, ht⟩ := ready s c rest ((pendingInput_of_noArrivals hturns hlast).trans hkbd)
  have hpending : pendingInput t = rest := by
    rw [ht]; exact pendingInput_of_noArrivals (by simp [hturns]) hlast
  have readKbdr (u : State) : u.memRead 0xFE02#16 = (u.mem.read 0xFE02#16, u) := plain u _ (by decide)
  cases rest with
  | nil =>
    obtain ⟨u, hread', -, hmem, hu⟩ := empty t hpending
    refine ⟨t, u, hread, by rw [readKbdr, hchar], nofun, fun _ => ⟨hread', ?_, ?_⟩⟩
    · rw [readKbdr, hmem _ (by decide), hchar]
    · rw [hu]
  | cons d rest =>
    obtain ⟨u, hread', -, hchar', -, hu⟩ := ready t d rest hpending
    refine ⟨t, u, hread, by rw [readKbdr, hchar], fun d' rest' h => ?_, nofun⟩
    cases h
    exact ⟨hread', by rw [readKbdr, hchar'], by rw [hu]⟩

/-- A running step whose fetch is a `MemRead` with a known answer (R217). -/
theorem step_of_memRead {s u : State} {w : Word} (hs : s.status = .running) (h : s.memRead s.pc = (w, u)) :
    step s = exec (decode w) (u.setPc (s.pc + 1#16)) := by
  simp only [step, hs, State.fetch, h]

/-- BR with an empty mask is a no-operation (R120). -/
@[simp] theorem branchTaken_zero (c : Cond) : branchTaken 0#3 c = false := by cases c <;> rfl

/-- Settles O9: the fetch is a read of KBSR (O41), which gives opcode `1000` or a branch that is never taken. -/
theorem fetchAtKbsrPolls : Obligations.FetchAtKbsrPolls := by
  obtain ⟨-, ready, empty⟩ := memReadPollsKeyboard
  intro s hs hpc
  have hnext : s.pc + 1#16 = 0xFE01#16 := by rw [hpc]; rfl
  refine ⟨fun c rest hp => ?_, fun hp => ?_⟩
  · obtain ⟨u, hread, hkbsr, hkbdr, -, hu⟩ := ready s c rest hp
    have hstep : step s = .next ((u.setPc 0xFE01#16).raise .illegalOpcode 0x8000#16) := by
      rw [step_of_memRead hs (by rw [hpc, hread]), hnext]; rfl
    have keeps {α : Type} (f : State → α) := congrArg f hu
    exact ⟨_, hstep, ⟨rfl, rfl⟩, rfl, hkbsr, hkbdr, keeps State.kbd, keeps State.regs, keeps State.cond⟩
  · obtain ⟨u, hread, hkbsr, -, hu⟩ := empty s hp
    have hstep : step s = .next (u.setPc 0xFE01#16) := by
      rw [step_of_memRead hs (by rw [hpc, hread]), hnext, show decode 0#16 = .br 0#3 0#9 from rfl]
      exact congrArg Host.Outcome.next (if_neg (by simp))
    have keeps {α : Type} (f : State → α) := congrArg f hu
    exact ⟨_, hstep, (keeps State.status).trans hs, rfl, hkbsr, keeps State.regs, keeps State.cond⟩

end Sys2Proof.Proofs
end

section
/-! PROOFS. Which cells an instruction changes (20_memory.md R55, R61, R66): a store ends in one `MemWrite`, and
nothing else that an instruction does changes a cell but KBSR and KBDR. -/

namespace Sys2Proof.Proofs
open Sys2Proof Sys2Proof.Machine

/-- Every cell but KBSR and KBDR reads in `t` as it does in `s`. -/
def KeepsCells (s t : State) : Prop := ∀ a, a ≠ kbsrAddr → a ≠ kbdrAddr → t.mem.read a = s.mem.read a

section

variable {i : Instr} {s t : State}

theorem keepsCells_of_mem_eq (h : t.mem = s.mem) : KeepsCells s t := fun _ _ _ => by rw [h]

/-- The last action of a store is its `MemWrite`; before it there is at most the read of a pointer
(42_load_store.md R134 to R136). -/
theorem exec_of_storeOf_eq_some {a v : Word} (h : storeOf i s = some (a, v)) :
    ∃ u, BusStep s u ∧ exec i s = .next (u.memWrite a v) := by
  cases i with
  | st | str => cases h; exact ⟨s, BusStep.refl s, rfl⟩
  | sti => cases h; exact ⟨_, memRead_bus s _, rfl⟩
  | _ => cases h

theorem execTrapGetc_mem {ign : BitVec 4} (h : execTrapGetc ign s = .next t) : t.mem = s.mem := by
  have hread := kbdRead_mem s
  unfold execTrapGetc at h
  split at h <;> next e => rw [e] at hread; cases h; exact hread

theorem execTrapOut_mem {ign : BitVec 4} (h : execTrapOut ign s = .next t) : t.mem = s.mem := by
  have hout := conOut_mem s.trapEnter (lowByte (s.trapEnter.reg .r0))
  unfold execTrapOut at h
  split at h <;> next e => rw [e] at hout; cases h; exact hout

theorem execTrapIn_mem {ign : BitVec 4} (h : execTrapIn ign s = .next t) : t.mem = s.mem := by
  have hread := kbdRead_mem s
  unfold execTrapIn at h
  split at h
  case h_1 u e | h_2 u e => rw [e] at hread; cases h; exact hread
  case h_3 c u e =>
    have hout := conOut_mem (u.trapEnter.setReg .r0 (charWord c)) (lowByte (charWord c))
    rw [e] at hread
    split at h <;> next e' => rw [e'] at hout; cases h; exact hout.trans hread

/-- A scan's reads change no cell but KBSR and KBDR, and its output none. -/
theorem finishScan_keepsCells {bytes : Word → List Byte} {n : Nat} {a ir : Word}
    (h : finishScan ir (scan bytes n a s.trapEnter) = .next t) : KeepsCells s t := by
  cases e : scan bytes n a s.trapEnter with
  | done u => rw [e] at h; cases h; exact (scan_bus (.inl e)).mem
  | failed u => rw [e] at h; cases h; exact (scan_bus (.inr e)).mem
  | endless => rw [e] at h; cases h

/-- What is no store changes no cell but by the intercept (R61). -/
theorem exec_keepsCells (hn : storeOf i s = none) (h : exec i s = .next t) : KeepsCells s t := by
  cases i with
  | addReg | addImm | andReg | andImm | not | lea | jmp | jsr | jsrr | trapHalt | trapOther | res | undef1000 =>
    cases h; exact keepsCells_of_mem_eq rfl
  | br => cases h; exact keepsCells_of_mem_eq (by split <;> rfl)
  | ld | ldr => cases h; exact (memRead_bus s _).mem
  | ldi => cases h; exact ((memRead_bus s _).trans (memRead_bus _ _)).mem
  | st | sti | str => cases hn
  | trapGetc => exact keepsCells_of_mem_eq (execTrapGetc_mem h)
  | trapOut => exact keepsCells_of_mem_eq (execTrapOut_mem h)
  | trapIn => exact keepsCells_of_mem_eq (execTrapIn_mem h)
  | trapPuts | trapPutsp => exact finishScan_keepsCells h

end

/-- Settles O47: by whether the instruction stores; a store's cell is excluded. -/
theorem memoryChangesOnlyByStores : Obligations.MemoryChangesOnlyByStores := by
  intro i s t a h h0 h2 hne
  cases hst : storeOf i s with
  | none => exact exec_keepsCells hst h a h0 h2
  | some p =>
    obtain ⟨b, v⟩ := p
    obtain ⟨u, bus, hexec⟩ := exec_of_storeOf_eq_some hst
    cases hexec.symm.trans h
    have hab : a ≠ b := fun e => hne v (by rw [hst, e])
    exact (memWrite_read_other u v hab).trans (bus.mem a h0 h2)

/-- Settles O53: the store is the instruction's last action, and the fetch is a plain read. -/
theorem nextFetchSeesStore : Obligations.NextFetchSeesStore := by
  intro i s t a v hst h hpc h0
  obtain ⟨u, -, hexec⟩ := exec_of_storeOf_eq_some hst
  cases hexec.symm.trans h
  rw [State.fetch, hpc, memRead_plain h0]
  exact memWrite_read_same u a v

end Sys2Proof.Proofs
end

section
/-! PROOFS. When a string scan ends (20_memory.md R67): an endless one has met a non-zero word in every ordinary
cell, and has taken a character at every pass over `0xFE00`. -/

namespace Sys2Proof.Proofs
open Sys2Proof Sys2Proof.Machine

section

variable {bytes : Word → List Byte} {n : Nat} {a : Word} {s t : State}

/-- A scan that goes on after its first read: the word is not zero, its bytes are emitted, and the rest is
endless too. -/
theorem scan_succ_endless (h : scan bytes (n + 1) a s = .endless) : (s.memRead a).1 ≠ 0#16 ∧
    ∃ u, (s.memRead a).2.conOutAll (bytes (s.memRead a).1) = (true, u) ∧ BusStep s u ∧
      scan bytes n (a + 1#16) u = .endless := by
  have hout := conOutAll_bus (s.memRead a).2 (bytes (s.memRead a).1)
  unfold scan at h
  split at h
  · cases h
  · next hw =>
    split at h
    · next u e => rw [e] at hout; exact ⟨hw, u, e, (memRead_bus s a).trans hout, h⟩
    · cases h

/-! ### An endless scan has read every cell -/

/-- An ordinary cell that an endless scan has read was non-zero when the scan began. -/
theorem read_ne_zero_of_scan_endless (h : scan bytes n a s = .endless) {k : Nat} (hk : k < n)
    (h0 : a + BitVec.ofNat 16 k ≠ kbsrAddr) (h2 : a + BitVec.ofNat 16 k ≠ kbdrAddr) :
    s.mem.read (a + BitVec.ofNat 16 k) ≠ 0#16 := by
  induction n generalizing a s k with
  | zero => cases hk
  | succ n ih =>
    obtain ⟨hw, u, -, bus, hrest⟩ := scan_succ_endless h
    cases k with
    | zero =>
      rw [BitVec.add_zero] at h0 ⊢
      rwa [memRead_plain h0] at hw
    | succ k =>
      have hshift : a + BitVec.ofNat 16 (k + 1) = a + 1#16 + BitVec.ofNat 16 k := by
        rw [Nat.add_comm, BitVec.ofNat_add, BitVec.add_assoc]
      rw [hshift] at h0 h2 ⊢
      rw [← bus.mem _ h0 h2]
      exact ih hrest (by omega) h0 h2

/-- 65536 reads in a row meet every cell. -/
theorem fullMemory_of_scan_endless (h : scan bytes n a s = .endless) (hn : 65536 ≤ n) {b : Word}
    (h0 : b ≠ kbsrAddr) (h2 : b ≠ kbdrAddr) : s.mem.read b ≠ 0#16 := by
  have hb : a + BitVec.ofNat 16 (b - a).toNat = b := by
    rw [BitVec.ofNat_toNat, BitVec.setWidth_eq, BitVec.add_comm, BitVec.sub_add_cancel]
  rw [← hb] at h0 h2 ⊢
  exact read_ne_zero_of_scan_endless h (by have := (b - a).isLt; omega) h0 h2

theorem finishScan_eq_fault {ir : Word} {e : ScanEnd} (h : finishScan ir e = .fault .scanNeverEnds) :
    e = .endless := by
  cases e with
  | endless => rfl
  | done | failed => cases h

/-! ### A pass over `0xFE00` takes a character -/

/-- All the characters that the environment still supplies before its last turn, oldest first. -/
def supply (s : State) : List Nat := s.kbd ++ s.turns.flatMap Turn.keys

/-- A request that takes no character leaves the supply as it is, if the last turn brings none. -/
theorem arrive_supply (hl : s.lastTurn.keys = []) : supply s.arrive = supply s := by
  cases h : s.turns <;> simp [supply, State.turn, h, hl]

theorem conOut_supply (b : Byte) (hl : s.lastTurn.keys = []) : supply (s.conOut b).2 = supply s := by
  unfold State.conOut
  split <;> exact arrive_supply hl

theorem conOutAll_supply (bs : List Byte) (hl : s.lastTurn.keys = []) :
    supply (s.conOutAll bs).2 = supply s := by
  induction bs generalizing s with
  | nil => rfl
  | cons b bs ih =>
    have hsupply := conOut_supply b hl
    have bus := conOut_bus s b
    unfold State.conOutAll
    split
    · next u e => rw [e] at hsupply bus; exact (ih (by rwa [bus.lastTurn])).trans hsupply
    · next u e => rw [e] at hsupply; exact hsupply

/-- A poll that answers a non-zero KBSR has taken the oldest character of the supply. -/
theorem memRead_kbsr_supply (hl : s.lastTurn.keys = []) (hw : (s.memRead kbsrAddr).1 ≠ 0#16) :
    (supply s).length = (supply (s.memRead kbsrAddr).2).length + 1 := by
  cases hp : s.kbd ++ s.turn.keys with
  | nil => exact absurd (by rw [memRead_kbsr_empty hp]) hw
  | cons c rest =>
    have harrive : supply s.arrive = c :: (rest ++ s.turns.tail.flatMap Turn.keys) := by
      simp only [supply, State.arrive_kbd, hp]; rfl
    rw [← arrive_supply hl, harrive, memRead_kbsr_ready hp]
    rfl

/-- How far a scan can go on without an end: up to the first poll, and 65536 reads more for each character
supplied. -/
theorem scan_endless_bound (hl : s.lastTurn.keys = []) (h : scan bytes n a s = .endless) :
    n ≤ 65536 * (supply s).length + (kbsrAddr - a).toNat := by
  induction n generalizing a s with
  | zero => exact Nat.zero_le _
  | succ n ih =>
    obtain ⟨hw, u, hout, bus, hrest⟩ := scan_succ_endless h
    have hsupply := conOutAll_supply (bytes (s.memRead a).1) (by rwa [(memRead_bus s a).lastTurn])
    rw [hout] at hsupply
    have hih := ih (by rwa [bus.lastTurn]) hrest
    rw [hsupply] at hih
    by_cases ha : a = kbsrAddr
    · subst ha
      have htaken := memRead_kbsr_supply hl hw
      have hd := (kbsrAddr - (kbsrAddr + 1#16)).isLt
      omega
    · simp only [memRead_plain ha] at hih
      have hd : (kbsrAddr - a).toNat = (kbsrAddr - (a + 1#16)).toNat + 1 := by
        unfold kbsrAddr at ha ⊢; bv_omega
      omega

/-- The bound of `scanBound` is enough when the supply is finite (assumption 6). -/
theorem scan_ne_endless (hl : s.lastTurn.keys = []) : scan bytes (scanBound s) a s.trapEnter ≠ .endless := by
  intro h
  have hle := scan_endless_bound (s := s.trapEnter) hl h
  have hd := (kbsrAddr - a).isLt
  have hlen : (supply s.trapEnter).length = s.kbd.length + (s.turns.map (fun t => t.keys.length)).sum := by
    simp [supply, List.length_flatMap]
  rw [hlen] at hle
  unfold scanBound at hle
  omega

/-! ### A console that never fails fails no scan -/

theorem neverFails_later (h : NeverFails s) (ht : t.turns <:+ s.turns) (hl : t.lastTurn = s.lastTurn) :
    NeverFails t :=
  ⟨fun u hu => h.1 u (ht.subset hu), by rw [hl]; exact h.2⟩

theorem turnAt_fail (h : NeverFails s) (j : Nat) : (turnAt s j).fail = false := by
  rw [turnAt, List.getD_eq_getElem?_getD]
  cases e : s.turns[j]? with
  | none => exact h.2
  | some u => exact h.1 u (List.mem_of_getElem? e)

theorem memRead_turns_suffix (s : State) (a : Word) : (s.memRead a).2.turns <:+ s.turns := by
  by_cases ha : a = kbsrAddr
  · subst ha
    cases hp : s.kbd ++ s.turn.keys with
    | nil => rw [memRead_kbsr_empty hp]; exact List.tail_suffix _
    | cons c rest => rw [memRead_kbsr_ready hp]; exact List.tail_suffix _
  · rw [memRead_plain ha]

theorem scan_ne_failed (h : NeverFails s) : scan bytes n a s ≠ .failed t := by
  induction n generalizing a s with
  | zero => exact ScanEnd.noConfusion
  | succ n ih =>
    have hread := neverFails_later h (memRead_turns_suffix s a) (memRead_bus s a).lastTurn
    unfold scan
    split
    · exact ScanEnd.noConfusion
    · rw [conOutAll_done _ fun j _ => turnAt_fail hread j]
      exact ih (neverFails_later hread (List.drop_suffix _ _) rfl)

/-- A scan that ends does so by the zero word or by a `ConOut` that failed (R153, R184). -/
theorem finishScan_of_ne_endless {ir : Word} (h : scan bytes n a s.trapEnter ≠ .endless) :
    ∃ t, finishScan ir (scan bytes n a s.trapEnter) = .next t ∧
      ((t.status = s.status ∧ t.faultRecord = s.faultRecord) ∨
        (¬NeverFails s ∧ FaultedWith t (.ioError .con) ir)) := by
  cases e : scan bytes n a s.trapEnter with
  | done u =>
    have bus := scan_bus (.inl e)
    exact ⟨u, rfl, .inl ⟨bus.status, bus.faultRecord⟩⟩
  | failed u => exact ⟨_, rfl, .inr ⟨fun hf => scan_ne_failed (s := s.trapEnter) hf e, rfl, rfl⟩⟩
  | endless => exact absurd e h

end

/-- Settles O39: both routines read at least 65536 cells before the model calls them endless. -/
theorem endlessScanNeedsFullMemory : Obligations.EndlessScanNeedsFullMemory := by
  intro ign s h a h0 h2
  have hbound : 65536 ≤ scanBound s := le_trans (by decide) (scanBound_ge s)
  rcases h with h | h <;> exact fullMemory_of_scan_endless (finishScan_eq_fault h) hbound h0 h2

/-- Settles O40: `scan_full_memory`, after the entry of the trap. -/
theorem scanOfFullMemoryIsEndless : Obligations.ScanOfFullMemoryIsEndless := by
  intro ign s hm ht hf hk hc
  have endless (bytes : Word → List Byte) (n : Nat) (a : Word) : scan bytes n a s.trapEnter = .endless := by
    refine scan_full_memory (s := s.trapEnter) hm ht hf hk fun c hmem hz => hc c (List.mem_append.2 hmem) ?_
    rw [← charWord_toNat, hz]; rfl
  exact ⟨congrArg (finishScan _) (endless ..), congrArg (finishScan _) (endless ..)⟩

/-- Settles O38: the scan is not endless, since every pass takes a character of a finite supply. -/
theorem scansEndOnFiniteInput : Obligations.ScansEndOnFiniteInput := by
  rintro ign i s (rfl | rfl) hl <;> exact finishScan_of_ne_endless (scan_ne_endless hl)

end Sys2Proof.Proofs
end

section
/-! PROOFS. Encoding (30_encoding.md R80 to R90): the table of R85 as a relation between words and instructions,
that decoding and encoding both follow it, and which bits of a word it looks at. -/

namespace Sys2Proof.Proofs
open Sys2Proof Sys2Proof.Machine

/-! ### Words that agree in some bits -/

/-- The words have the same bits where `m` has ones. -/
def AgreeOn (m w w' : Word) : Prop := w &&& m = w' &&& m

/-- The mask of the `k` bits from bit `l` on. -/
def fieldBits (l k : Nat) : Word := (BitVec.allOnes k).setWidth 16 <<< l

theorem agreeOn_iff_bits {m w w' : Word} :
    AgreeOn m w w' ↔ ∀ i, i < 16 → m.getLsbD i = true → w.getLsbD i = w'.getLsbD i := by
  simp only [AgreeOn, BitVec.eq_of_getLsbD_eq_iff, BitVec.getLsbD_and]
  refine forall₂_congr fun i _ => ?_
  cases m.getLsbD i <;> simp

theorem agreeOn_or {m n w w' : Word} :
    AgreeOn (m ||| n) w w' ↔ AgreeOn m w w' ∧ AgreeOn n w w' := by
  simp only [agreeOn_iff_bits, BitVec.getLsbD_or, Bool.or_eq_true, or_imp, forall_and]

theorem getLsbD_fieldBits {l k i : Nat} (hi : i < 16) :
    (fieldBits l k).getLsbD i = true ↔ l ≤ i ∧ i < l + k := by
  simp only [fieldBits, BitVec.getLsbD_shiftLeft, BitVec.getLsbD_setWidth, BitVec.getLsbD_allOnes,
    Bool.and_eq_true, Bool.not_eq_true', decide_eq_true_eq, decide_eq_false_iff_not]
  omega

/-- Words agree in the bits of a field when the field is the same in both. -/
theorem agreeOn_fieldBits {l k : Nat} (h : l + k ≤ 16) {w w' : Word} :
    AgreeOn (fieldBits l k) w w' ↔ w.extractLsb' l k = w'.extractLsb' l k := by
  rw [agreeOn_iff_bits, BitVec.eq_of_getLsbD_eq_iff]
  constructor
  · intro hw i hi
    simpa [hi] using hw (l + i) (by omega) ((getLsbD_fieldBits (by omega)).2 (by omega))
  · intro hw i hi hm
    obtain ⟨hl, hk⟩ := (getLsbD_fieldBits hi).1 hm
    simpa [show i - l < k by omega, show l + (i - l) = i by omega] using hw (i - l) (by omega)

theorem ofBits_inj {b c : BitVec 3} : Reg.ofBits b = Reg.ofBits c ↔ b = c :=
  ⟨fun h => by simpa using congrArg Reg.bits h, congrArg Reg.ofBits⟩

theorem extractLsb'_one_eq_iff {w w' : Word} {l : Nat} :
    w.extractLsb' l 1 = w'.extractLsb' l 1 ↔ w.getLsbD l = w'.getLsbD l := by
  simp [BitVec.eq_of_getLsbD_eq_iff]

section

variable {w w' : Word}

theorem opcodeField_eq_iff : opcodeField w = opcodeField w' ↔ AgreeOn (fieldBits 12 4) w w' :=
  (agreeOn_fieldBits (by decide)).symm
theorem field11to9_eq_iff : field11to9 w = field11to9 w' ↔ AgreeOn (fieldBits 9 3) w w' :=
  ofBits_inj.trans (agreeOn_fieldBits (by decide)).symm
theorem field8to6_eq_iff : field8to6 w = field8to6 w' ↔ AgreeOn (fieldBits 6 3) w w' :=
  ofBits_inj.trans (agreeOn_fieldBits (by decide)).symm
theorem field2to0_eq_iff : field2to0 w = field2to0 w' ↔ AgreeOn (fieldBits 0 3) w w' :=
  ofBits_inj.trans (agreeOn_fieldBits (by decide)).symm
theorem fieldImm5_eq_iff : fieldImm5 w = fieldImm5 w' ↔ AgreeOn (fieldBits 0 5) w w' :=
  (agreeOn_fieldBits (by decide)).symm
theorem fieldOff6_eq_iff : fieldOff6 w = fieldOff6 w' ↔ AgreeOn (fieldBits 0 6) w w' :=
  (agreeOn_fieldBits (by decide)).symm
theorem fieldOff9_eq_iff : fieldOff9 w = fieldOff9 w' ↔ AgreeOn (fieldBits 0 9) w w' :=
  (agreeOn_fieldBits (by decide)).symm
theorem fieldOff11_eq_iff : fieldOff11 w = fieldOff11 w' ↔ AgreeOn (fieldBits 0 11) w w' :=
  (agreeOn_fieldBits (by decide)).symm
theorem fieldMask_eq_iff : fieldMask w = fieldMask w' ↔ AgreeOn (fieldBits 9 3) w w' :=
  (agreeOn_fieldBits (by decide)).symm
theorem fieldVect_eq_iff : fieldVect w = fieldVect w' ↔ AgreeOn (fieldBits 0 8) w w' :=
  (agreeOn_fieldBits (by decide)).symm
theorem fieldIgn4_eq_iff : fieldIgn4 w = fieldIgn4 w' ↔ AgreeOn (fieldBits 8 4) w w' :=
  (agreeOn_fieldBits (by decide)).symm
theorem fieldIgn12_eq_iff : fieldIgn12 w = fieldIgn12 w' ↔ AgreeOn (fieldBits 0 12) w w' :=
  (agreeOn_fieldBits (by decide)).symm
theorem bit_eq_iff {l : Nat} (h : l < 16) : w.getLsbD l = w'.getLsbD l ↔ AgreeOn (fieldBits l 1) w w' :=
  extractLsb'_one_eq_iff.symm.trans (agreeOn_fieldBits h).symm

theorem eq_iff_agreeOn : w = w' ↔ AgreeOn 0xFFFF#16 w w' := by
  rw [show (0xFFFF#16 : Word) = BitVec.allOnes 16 from rfl, AgreeOn, BitVec.and_allOnes, BitVec.and_allOnes]

/-! The masks of R85 (ADD and AND in register mode, NOT, JMP, JSRR, TRAP, the illegal opcodes) and of the
opcode table (a mode bit beside the opcode), as fields. -/

theorem agreeOn_FFE7_iff : AgreeOn 0xFFE7#16 w w' ↔
    opcodeField w = opcodeField w' ∧ field11to9 w = field11to9 w' ∧ field8to6 w = field8to6 w' ∧
      w.getLsbD 5 = w'.getLsbD 5 ∧ field2to0 w = field2to0 w' := by
  rw [opcodeField_eq_iff, field11to9_eq_iff, field8to6_eq_iff, bit_eq_iff (by decide), field2to0_eq_iff]
  simp only [← agreeOn_or]
  exact .rfl

theorem agreeOn_FFC0_iff : AgreeOn 0xFFC0#16 w w' ↔
    opcodeField w = opcodeField w' ∧ field11to9 w = field11to9 w' ∧ field8to6 w = field8to6 w' := by
  rw [opcodeField_eq_iff, field11to9_eq_iff, field8to6_eq_iff]
  simp only [← agreeOn_or]
  exact .rfl

theorem agreeOn_F1C0_iff : AgreeOn 0xF1C0#16 w w' ↔
    opcodeField w = opcodeField w' ∧ field8to6 w = field8to6 w' := by
  rw [opcodeField_eq_iff, field8to6_eq_iff]
  simp only [← agreeOn_or]
  exact .rfl

theorem agreeOn_F9C0_iff : AgreeOn 0xF9C0#16 w w' ↔
    opcodeField w = opcodeField w' ∧ w.getLsbD 11 = w'.getLsbD 11 ∧ field8to6 w = field8to6 w' := by
  rw [opcodeField_eq_iff, bit_eq_iff (by decide), field8to6_eq_iff]
  simp only [← agreeOn_or]
  exact .rfl

theorem agreeOn_F0FF_iff : AgreeOn 0xF0FF#16 w w' ↔
    opcodeField w = opcodeField w' ∧ fieldVect w = fieldVect w' := by
  rw [opcodeField_eq_iff, fieldVect_eq_iff]
  simp only [← agreeOn_or]
  exact .rfl

theorem agreeOn_F000_iff : AgreeOn 0xF000#16 w w' ↔
    opcodeField w = opcodeField w' := by
  rw [opcodeField_eq_iff]
  exact .rfl

theorem agreeOn_F020_iff : AgreeOn 0xF020#16 w w' ↔
    opcodeField w = opcodeField w' ∧ w.getLsbD 5 = w'.getLsbD 5 := by
  rw [opcodeField_eq_iff, bit_eq_iff (by decide)]
  simp only [← agreeOn_or]
  exact .rfl

theorem agreeOn_F800_iff : AgreeOn 0xF800#16 w w' ↔
    opcodeField w = opcodeField w' ∧ w.getLsbD 11 = w'.getLsbD 11 := by
  rw [opcodeField_eq_iff, bit_eq_iff (by decide)]
  simp only [← agreeOn_or]
  exact .rfl

/-! The formats of R81 to R84 without an `x` bit: their fields are the whole word. -/

theorem eq_iff_imm5_format : w = w' ↔
    opcodeField w = opcodeField w' ∧ field11to9 w = field11to9 w' ∧ field8to6 w = field8to6 w' ∧
      w.getLsbD 5 = w'.getLsbD 5 ∧ fieldImm5 w = fieldImm5 w' := by
  rw [eq_iff_agreeOn, opcodeField_eq_iff, field11to9_eq_iff, field8to6_eq_iff, bit_eq_iff (by decide),
    fieldImm5_eq_iff]
  simp only [← agreeOn_or]
  exact .rfl

theorem eq_iff_off6_format : w = w' ↔
    opcodeField w = opcodeField w' ∧ field11to9 w = field11to9 w' ∧ field8to6 w = field8to6 w' ∧
      fieldOff6 w = fieldOff6 w' := by
  rw [eq_iff_agreeOn, opcodeField_eq_iff, field11to9_eq_iff, field8to6_eq_iff, fieldOff6_eq_iff]
  simp only [← agreeOn_or]
  exact .rfl

theorem eq_iff_off9_format : w = w' ↔
    opcodeField w = opcodeField w' ∧ field11to9 w = field11to9 w' ∧ fieldOff9 w = fieldOff9 w' := by
  rw [eq_iff_agreeOn, opcodeField_eq_iff, field11to9_eq_iff, fieldOff9_eq_iff]
  simp only [← agreeOn_or]
  exact .rfl

theorem eq_iff_br_format : w = w' ↔
    opcodeField w = opcodeField w' ∧ fieldMask w = fieldMask w' ∧ fieldOff9 w = fieldOff9 w' := by
  rw [eq_iff_agreeOn, opcodeField_eq_iff, fieldMask_eq_iff, fieldOff9_eq_iff]
  simp only [← agreeOn_or]
  exact .rfl

theorem eq_iff_off11_format : w = w' ↔
    opcodeField w = opcodeField w' ∧ w.getLsbD 11 = w'.getLsbD 11 ∧ fieldOff11 w = fieldOff11 w' := by
  rw [eq_iff_agreeOn, opcodeField_eq_iff, bit_eq_iff (by decide), fieldOff11_eq_iff]
  simp only [← agreeOn_or]
  exact .rfl

theorem eq_iff_trap_format : w = w' ↔
    opcodeField w = opcodeField w' ∧ fieldIgn4 w = fieldIgn4 w' ∧ fieldVect w = fieldVect w' := by
  rw [eq_iff_agreeOn, opcodeField_eq_iff, fieldIgn4_eq_iff, fieldVect_eq_iff]
  simp only [← agreeOn_or]
  exact .rfl

theorem eq_iff_illegal_format : w = w' ↔
    opcodeField w = opcodeField w' ∧ fieldIgn12 w = fieldIgn12 w' := by
  rw [eq_iff_agreeOn, opcodeField_eq_iff, fieldIgn12_eq_iff]
  simp only [← agreeOn_or]
  exact .rfl

end

/-! ### The table of R85 -/

/-- `ReadsAs w i`: the row of R85 for `i` fits the word `w`, and its fields in `w` are the operands of `i`. -/
inductive ReadsAs (w : Word) : Instr → Prop where
  | addReg {dr sr1 sr2 : Reg} (op : opcodeField w = 0b0001#4) (mode : w.getLsbD 5 = false)
      (hdr : field11to9 w = dr) (hsr1 : field8to6 w = sr1) (hsr2 : field2to0 w = sr2) :
      ReadsAs w (.addReg dr sr1 sr2)
  | addImm {dr sr1 : Reg} {imm5 : BitVec 5} (op : opcodeField w = 0b0001#4) (mode : w.getLsbD 5 = true)
      (hdr : field11to9 w = dr) (hsr1 : field8to6 w = sr1) (himm : fieldImm5 w = imm5) :
      ReadsAs w (.addImm dr sr1 imm5)
  | andReg {dr sr1 sr2 : Reg} (op : opcodeField w = 0b0101#4) (mode : w.getLsbD 5 = false)
      (hdr : field11to9 w = dr) (hsr1 : field8to6 w = sr1) (hsr2 : field2to0 w = sr2) :
      ReadsAs w (.andReg dr sr1 sr2)
  | andImm {dr sr1 : Reg} {imm5 : BitVec 5} (op : opcodeField w = 0b0101#4) (mode : w.getLsbD 5 = true)
      (hdr : field11to9 w = dr) (hsr1 : field8to6 w = sr1) (himm : fieldImm5 w = imm5) :
      ReadsAs w (.andImm dr sr1 imm5)
  | not {dr sr : Reg} (op : opcodeField w = 0b1001#4) (hdr : field11to9 w = dr) (hsr : field8to6 w = sr) :
      ReadsAs w (.not dr sr)
  | br {mask : BitVec 3} {off9 : BitVec 9} (op : opcodeField w = 0b0000#4) (hmask : fieldMask w = mask)
      (hoff : fieldOff9 w = off9) : ReadsAs w (.br mask off9)
  | jmp {base : Reg} (op : opcodeField w = 0b1100#4) (hbase : field8to6 w = base) : ReadsAs w (.jmp base)
  | jsr {off11 : BitVec 11} (op : opcodeField w = 0b0100#4) (mode : w.getLsbD 11 = true)
      (hoff : fieldOff11 w = off11) : ReadsAs w (.jsr off11)
  | jsrr {base : Reg} (op : opcodeField w = 0b0100#4) (mode : w.getLsbD 11 = false)
      (hbase : field8to6 w = base) : ReadsAs w (.jsrr base)
  | ld {dr : Reg} {off9 : BitVec 9} (op : opcodeField w = 0b0010#4) (hdr : field11to9 w = dr)
      (hoff : fieldOff9 w = off9) : ReadsAs w (.ld dr off9)
  | ldi {dr : Reg} {off9 : BitVec 9} (op : opcodeField w = 0b1010#4) (hdr : field11to9 w = dr)
      (hoff : fieldOff9 w = off9) : ReadsAs w (.ldi dr off9)
  | ldr {dr base : Reg} {off6 : BitVec 6} (op : opcodeField w = 0b0110#4) (hdr : field11to9 w = dr)
      (hbase : field8to6 w = base) (hoff : fieldOff6 w = off6) : ReadsAs w (.ldr dr base off6)
  | lea {dr : Reg} {off9 : BitVec 9} (op : opcodeField w = 0b1110#4) (hdr : field11to9 w = dr)
      (hoff : fieldOff9 w = off9) : ReadsAs w (.lea dr off9)
  | st {sr : Reg} {off9 : BitVec 9} (op : opcodeField w = 0b0011#4) (hsr : field11to9 w = sr)
      (hoff : fieldOff9 w = off9) : ReadsAs w (.st sr off9)
  | sti {sr : Reg} {off9 : BitVec 9} (op : opcodeField w = 0b1011#4) (hsr : field11to9 w = sr)
      (hoff : fieldOff9 w = off9) : ReadsAs w (.sti sr off9)
  | str {sr base : Reg} {off6 : BitVec 6} (op : opcodeField w = 0b0111#4) (hsr : field11to9 w = sr)
      (hbase : field8to6 w = base) (hoff : fieldOff6 w = off6) : ReadsAs w (.str sr base off6)
  | trapGetc {ign : BitVec 4} (op : opcodeField w = 0b1111#4) (vect : fieldVect w = 0x20#8)
      (hign : fieldIgn4 w = ign) : ReadsAs w (.trapGetc ign)
  | trapOut {ign : BitVec 4} (op : opcodeField w = 0b1111#4) (vect : fieldVect w = 0x21#8)
      (hign : fieldIgn4 w = ign) : ReadsAs w (.trapOut ign)
  | trapPuts {ign : BitVec 4} (op : opcodeField w = 0b1111#4) (vect : fieldVect w = 0x22#8)
      (hign : fieldIgn4 w = ign) : ReadsAs w (.trapPuts ign)
  | trapIn {ign : BitVec 4} (op : opcodeField w = 0b1111#4) (vect : fieldVect w = 0x23#8)
      (hign : fieldIgn4 w = ign) : ReadsAs w (.trapIn ign)
  | trapPutsp {ign : BitVec 4} (op : opcodeField w = 0b1111#4) (vect : fieldVect w = 0x24#8)
      (hign : fieldIgn4 w = ign) : ReadsAs w (.trapPutsp ign)
  | trapHalt {ign : BitVec 4} (op : opcodeField w = 0b1111#4) (vect : fieldVect w = 0x25#8)
      (hign : fieldIgn4 w = ign) : ReadsAs w (.trapHalt ign)
  | trapOther {ign : BitVec 4} {v : BitVec 8} (op : opcodeField w = 0b1111#4)
      (undefined : definedVector v = false) (hvect : fieldVect w = v) (hign : fieldIgn4 w = ign) :
      ReadsAs w (.trapOther ign v)
  | res {ign : BitVec 12} (op : opcodeField w = 0b1101#4) (hign : fieldIgn12 w = ign) : ReadsAs w (.res ign)
  | undef1000 {ign : BitVec 12} (op : opcodeField w = 0b1000#4) (hign : fieldIgn12 w = ign) :
      ReadsAs w (.undef1000 ign)

theorem undefinedVector_iff {v : BitVec 8} : definedVector v = false ↔
    v ≠ 0x20#8 ∧ v ≠ 0x21#8 ∧ v ≠ 0x22#8 ∧ v ≠ 0x23#8 ∧ v ≠ 0x24#8 ∧ v ≠ 0x25#8 := by
  rw [← Bool.not_eq_true, definedVector_iff]
  simp only [not_or, ne_eq]

/-- A vector without a service routine selects the catch-all row (R88, R157). -/
theorem decodeTrap_of_undefined (ign : BitVec 4) {v : BitVec 8} (h : definedVector v = false) :
    decodeTrap ign v = .trapOther ign v := by
  obtain ⟨h20, h21, h22, h23, h24, h25⟩ := undefinedVector_iff.1 h
  simp [decodeTrap, h20, h21, h22, h23, h24, h25]

/-- The decoder follows the table: it depends on the word through its reading alone. -/
theorem decode_of_readsAs {w : Word} {i : Instr} (h : ReadsAs w i) : decode w = i := by
  cases h with
  | trapGetc op vect hign | trapOut op vect hign | trapPuts op vect hign | trapIn op vect hign
  | trapPutsp op vect hign | trapHalt op vect hign => rw [decode_of_trap op, vect, hign]; rfl
  | trapOther op undefined hvect hign =>
    rw [decode_of_trap op, hvect, hign, decodeTrap_of_undefined _ undefined]
  | addReg op mode | addImm op mode | andReg op mode | andImm op mode | jsr op mode | jsrr op mode =>
    subst_vars
    obtain ⟨h15, h14, h13, h12⟩ := bits_of_opcodeField op
    simp only [decode, h15, h14, h13, h12, mode]
    rfl
  | not op | br op | jmp op | ld op | ldi op | ldr op | lea op | st op | sti op | str op | res op | undef1000 op =>
    subst_vars
    obtain ⟨h15, h14, h13, h12⟩ := bits_of_opcodeField op
    simp only [decode, h15, h14, h13, h12]
    rfl

/-- Every field stands in the encoded word where the decoder looks for it. -/
theorem encode_readsAs {i : Instr} (hi : i.wf = true) : ReadsAs (encode i) i := by
  cases i <;> constructor
  case trapOther.undefined => simpa [Instr.wf] using hi
  all_goals
    simp (disch := omega) only [encode, opcodeField, field11to9, field8to6, field2to0, fieldImm5, fieldOff6, fieldOff9,
      fieldOff11, fieldMask, fieldVect, fieldIgn4, fieldIgn12, BitVec.getLsbD_append,
      BitVec.extractLsb'_append_eq_of_le, BitVec.extractLsb'_append_eq_of_add_le]
    simp

/-- The catch-all row is the reading of a vector that is none of the six (R88). -/
theorem decodeTrap_readsAs {w : Word} (op : opcodeField w = 0b1111#4) :
    ReadsAs w (decodeTrap (fieldIgn4 w) (fieldVect w)) := by
  cases hv : definedVector (fieldVect w) with
  | false => rw [decodeTrap_of_undefined _ hv]; exact .trapOther op hv rfl rfl
  | true =>
    obtain h | h | h | h | h | h := (definedVector_iff _).1 hv <;> rw [h]
    · exact .trapGetc op h rfl
    · exact .trapOut op h rfl
    · exact .trapPuts op h rfl
    · exact .trapIn op h rfl
    · exact .trapPutsp op h rfl
    · exact .trapHalt op h rfl

/-- The table is total: what a word decodes to is a reading of it (R88). -/
theorem decode_readsAs (w : Word) : ReadsAs w (decode w) := by
  have hop := opcodeField_eq_bits w
  unfold decode
  split <;> rename_i h15 h14 h13 h12 <;> rw [h15, h14, h13, h12] at hop
  case h_16 => exact decodeTrap_readsAs hop
  case h_2 =>
    cases mode : w.getLsbD 5
    · exact .addReg hop mode rfl rfl rfl
    · exact .addImm hop mode rfl rfl rfl
  case h_5 =>
    cases mode : w.getLsbD 11
    · exact .jsrr hop mode rfl
    · exact .jsr hop mode rfl
  case h_6 =>
    cases mode : w.getLsbD 5
    · exact .andReg hop mode rfl rfl rfl
    · exact .andImm hop mode rfl rfl rfl
  all_goals
    constructor
    · exact hop
    all_goals rfl

/-- Settles O1: the encoded word reads as the instruction, and the decoder follows the reading. -/
theorem decodeEncodeRoundTrip : Obligations.DecodeEncodeRoundTrip :=
  fun _ hi => decode_of_readsAs (encode_readsAs hi)

section

variable {w w' : Word} {i : Instr}

/-- The rows that carry their ignored bits lose none. -/
theorem ReadsAs.eq_of_carries (h : ReadsAs w i) (h' : ReadsAs w' i)
    (hi : i.opcode = 0b1111#4 ∨ i.opcode = 0b1101#4 ∨ i.opcode = 0b1000#4) : w = w' := by
  cases h with
  | trapGetc | trapOut | trapPuts | trapIn | trapPutsp | trapHalt | trapOther =>
    cases h'; exact eq_iff_trap_format.2 (by simp only [*, and_self])
  | res | undef1000 => cases h'; exact eq_iff_illegal_format.2 (by simp only [*, and_self])
  | _ => simp [Instr.opcode] at hi

/-- The bits that R85 does not mark `x` are those of the opcode, the mode bit and the fields of the row. -/
theorem ReadsAs.agree (h : ReadsAs w i) (h' : ReadsAs w' i) : AgreeOn (usedBits i) w w' := by
  have carried := h.eq_of_carries h'
  cases h with
  | addReg | andReg => cases h'; exact agreeOn_FFE7_iff.2 (by simp only [*, and_self])
  | not => cases h'; exact agreeOn_FFC0_iff.2 (by simp only [*, and_self])
  | jmp => cases h'; exact agreeOn_F1C0_iff.2 (by simp only [*, and_self])
  | jsrr => cases h'; exact agreeOn_F9C0_iff.2 (by simp only [*, and_self])
  | addImm | andImm =>
    cases h'; exact eq_iff_agreeOn.1 (eq_iff_imm5_format.2 (by simp only [*, and_self]))
  | br => cases h'; exact eq_iff_agreeOn.1 (eq_iff_br_format.2 (by simp only [*, and_self]))
  | jsr => cases h'; exact eq_iff_agreeOn.1 (eq_iff_off11_format.2 (by simp only [*, and_self]))
  | ld | ldi | lea | st | sti =>
    cases h'; exact eq_iff_agreeOn.1 (eq_iff_off9_format.2 (by simp only [*, and_self]))
  | ldr | str => cases h'; exact eq_iff_agreeOn.1 (eq_iff_off6_format.2 (by simp only [*, and_self]))
  | trapGetc | trapOut | trapPuts | trapIn | trapPutsp | trapHalt | trapOther | res | undef1000 =>
    rw [carried (by simp [Instr.opcode])]; rfl

end

/-- Settles O2: the word and the encoding of what it decodes to read as the same instruction. -/
theorem encodeDecodeKeepsUsedBits : Obligations.EncodeDecodeKeepsUsedBits := by
  intro w
  have encoded := encode_readsAs (decode_wf w)
  refine ⟨decode_wf w, encoded.agree (decode_readsAs w),
    fun hw => encoded.eq_of_carries (decode_readsAs w) ?_⟩
  rwa [decode_opcode]

/-! ### The opcode table -/

section

variable {w r : Word}

/-- A row with match `r` and mask `m` accepts a word that agrees with `r` in the bits of `m` (R88). -/
theorem match_of_agreeOn_iff {m : Word} {p : Prop} [Decidable p] (hr : r &&& m = r) (h : AgreeOn m w r ↔ p) :
    (w &&& m == r) = decide p := by
  rw [Bool.eq_iff_iff, beq_iff_eq, decide_eq_true_iff, ← h, AgreeOn, hr]

theorem match_F000 (hr : r &&& 0xF000#16 = r) :
    (w &&& 0xF000#16 == r) = decide (opcodeField w = r.extractLsb' 12 4) :=
  match_of_agreeOn_iff hr agreeOn_F000_iff

theorem match_F020 (hr : r &&& 0xF020#16 = r) :
    (w &&& 0xF020#16 == r) = decide (opcodeField w = r.extractLsb' 12 4 ∧ w.getLsbD 5 = r.getLsbD 5) :=
  match_of_agreeOn_iff hr agreeOn_F020_iff

theorem match_F800 (hr : r &&& 0xF800#16 = r) :
    (w &&& 0xF800#16 == r) = decide (opcodeField w = r.extractLsb' 12 4 ∧ w.getLsbD 11 = r.getLsbD 11) :=
  match_of_agreeOn_iff hr agreeOn_F800_iff

theorem match_F0FF (hr : r &&& 0xF0FF#16 = r) :
    (w &&& 0xF0FF#16 == r) = decide (opcodeField w = r.extractLsb' 12 4 ∧ fieldVect w = r.extractLsb' 0 8) :=
  match_of_agreeOn_iff hr agreeOn_F0FF_iff

end

/-- The row that a word reads as is the first of the table that accepts it: the opcode, the mode bit and the
vector decide about every row. -/
theorem ReadsAs.firstMatch {w : Word} {i : Instr} (h : ReadsAs w i) :
    opcodeTable.findIdx? (fun r => w &&& r.2 == r.1) = some (rowNumber i) := by
  cases h with
  | trapOther op undefined hvect =>
    rw [← hvect] at undefined
    have hne := undefinedVector_iff.1 undefined
    simp [opcodeTable, List.findIdx?_cons, match_F000, match_F020, match_F800, match_F0FF, op, hne,
      rowNumber]
  | _ =>
    simp [opcodeTable, List.findIdx?_cons, match_F000, match_F020, match_F800, match_F0FF, rowNumber,
      -BitVec.getLsbD_eq_getElem, *]

/-- Settles O3: the row of the table is the one of R85. -/
theorem decoderFollowsTable : Obligations.DecoderFollowsTable := fun w => (decode_readsAs w).firstMatch

/-! ### Ignored bits -/

/-- Instructions that differ at most in the ignored bits that they carry. -/
inductive SameButIgn : Instr → Instr → Prop where
  | refl (i : Instr) : SameButIgn i i
  | trap (ign ign' : BitVec 4) (v : BitVec 8) : SameButIgn (decodeTrap ign v) (decodeTrap ign' v)
  | res (ign ign' : BitVec 12) : SameButIgn (.res ign) (.res ign')
  | undef1000 (ign ign' : BitVec 12) : SameButIgn (.undef1000 ign) (.undef1000 ign')

/-- A word that agrees with `w` in the used bits of its row decodes to the same row with the same operands. -/
theorem ReadsAs.sameButIgn {w w' : Word} {i : Instr} (h : ReadsAs w i) (hw : AgreeOn (usedBits i) w w') :
    SameButIgn i (decode w') := by
  have hi := decode_of_readsAs h
  cases h with
  | addReg op mode hdr hsr1 hsr2 =>
    obtain ⟨hop, h11, h8, h5, h2⟩ := agreeOn_FFE7_iff.1 hw
    rw [decode_of_readsAs (.addReg (hop ▸ op) (h5 ▸ mode) (h11 ▸ hdr) (h8 ▸ hsr1) (h2 ▸ hsr2))]
    exact .refl _
  | andReg op mode hdr hsr1 hsr2 =>
    obtain ⟨hop, h11, h8, h5, h2⟩ := agreeOn_FFE7_iff.1 hw
    rw [decode_of_readsAs (.andReg (hop ▸ op) (h5 ▸ mode) (h11 ▸ hdr) (h8 ▸ hsr1) (h2 ▸ hsr2))]
    exact .refl _
  | not op hdr hsr =>
    obtain ⟨hop, h11, h8⟩ := agreeOn_FFC0_iff.1 hw
    rw [decode_of_readsAs (.not (hop ▸ op) (h11 ▸ hdr) (h8 ▸ hsr))]
    exact .refl _
  | jmp op hbase =>
    obtain ⟨hop, h8⟩ := agreeOn_F1C0_iff.1 hw
    rw [decode_of_readsAs (.jmp (hop ▸ op) (h8 ▸ hbase))]
    exact .refl _
  | jsrr op mode hbase =>
    obtain ⟨hop, h11, h8⟩ := agreeOn_F9C0_iff.1 hw
    rw [decode_of_readsAs (.jsrr (hop ▸ op) (h11 ▸ mode) (h8 ▸ hbase))]
    exact .refl _
  | trapGetc op | trapOut op | trapPuts op | trapIn op | trapPutsp op | trapHalt op | trapOther op =>
    obtain ⟨hop, hvect⟩ := agreeOn_F0FF_iff.1 hw
    rw [← hi, decode_of_trap op, decode_of_trap (hop ▸ op), hvect]
    exact .trap ..
  | res op =>
    rw [decode_of_readsAs (.res (agreeOn_F000_iff.1 hw ▸ op) rfl)]
    exact .res ..
  | undef1000 op =>
    rw [decode_of_readsAs (.undef1000 (agreeOn_F000_iff.1 hw ▸ op) rfl)]
    exact .undef1000 ..
  | addImm | andImm | br | jsr | ld | ldi | ldr | lea | st | sti | str =>
    rw [← hi, eq_iff_agreeOn.2 hw]
    exact .refl _

theorem sameButIr_refl : ∀ o : Host.Outcome State Fault Refusal, SameButIr o o
  | .next _ | .fault _ | .refused _ => rfl

/-! The routines use their instruction word for the fault record alone (R32). -/

theorem finishScan_sameButIr (ir ir' : Word) : ∀ e : ScanEnd, SameButIr (finishScan ir e) (finishScan ir' e)
  | .done _ | .failed _ | .endless => rfl

theorem execTrapGetc_sameButIr (ign ign' : BitVec 4) (s : State) :
    SameButIr (execTrapGetc ign s) (execTrapGetc ign' s) := by
  unfold execTrapGetc
  split <;> rfl

theorem execTrapOut_sameButIr (ign ign' : BitVec 4) (s : State) :
    SameButIr (execTrapOut ign s) (execTrapOut ign' s) := by
  unfold execTrapOut
  split <;> rfl

theorem execTrapIn_sameButIr (ign ign' : BitVec 4) (s : State) :
    SameButIr (execTrapIn ign s) (execTrapIn ign' s) := by
  unfold execTrapIn
  split
  · rfl
  · rfl
  · split <;> rfl

theorem exec_decodeTrap_sameButIr (ign ign' : BitVec 4) (v : BitVec 8) (s : State) :
    SameButIr (exec (decodeTrap ign v) s) (exec (decodeTrap ign' v) s) := by
  unfold decodeTrap
  split_ifs
  · exact execTrapGetc_sameButIr ..
  · exact execTrapOut_sameButIr ..
  · exact finishScan_sameButIr ..
  · exact execTrapIn_sameButIr ..
  · exact finishScan_sameButIr ..
  · rfl
  · rfl

/-- No meaning depends on the ignored bits, but for the word in a fault record (R87). -/
theorem exec_sameButIr {i j : Instr} (h : SameButIgn i j) (s : State) : SameButIr (exec i s) (exec j s) := by
  cases h with
  | refl => exact sameButIr_refl _
  | trap => exact exec_decodeTrap_sameButIr ..
  | res | undef1000 => rfl

/-- Settles O4: the two words read as instructions that differ at most in carried ignored bits. -/
theorem ignoredBitsHaveNoEffect : Obligations.IgnoredBitsHaveNoEffect :=
  fun w _ s hw => exec_sameButIr ((decode_readsAs w).sameButIgn hw) s

/-! ### Every instruction runs -/

theorem finishScan_runs (ir : Word) : ∀ e : ScanEnd,
    (∃ t, finishScan ir e = .next t) ∨ finishScan ir e = .fault .scanNeverEnds
  | .done _ | .failed _ => .inl ⟨_, rfl⟩
  | .endless => .inr rfl

theorem execTrapGetc_runs (ign : BitVec 4) (s : State) : ∃ t, execTrapGetc ign s = .next t := by
  unfold execTrapGetc
  split <;> exact ⟨_, rfl⟩

theorem execTrapOut_runs (ign : BitVec 4) (s : State) : ∃ t, execTrapOut ign s = .next t := by
  unfold execTrapOut
  split <;> exact ⟨_, rfl⟩

theorem execTrapIn_runs (ign : BitVec 4) (s : State) : ∃ t, execTrapIn ign s = .next t := by
  unfold execTrapIn
  split
  · exact ⟨_, rfl⟩
  · exact ⟨_, rfl⟩
  · split <;> exact ⟨_, rfl⟩

/-- Settles O51: only `finishScan` answers anything but a next state. -/
theorem everyInstructionRuns : Obligations.EveryInstructionRuns := by
  intro i s
  cases i with
  | trapGetc ign => exact .inl (execTrapGetc_runs ign s)
  | trapOut ign => exact .inl (execTrapOut_runs ign s)
  | trapIn ign => exact .inl (execTrapIn_runs ign s)
  | trapPuts ign => exact (finishScan_runs ..).imp_right fun h => ⟨h, ign, .inl rfl⟩
  | trapPutsp ign => exact (finishScan_runs ..).imp_right fun h => ⟨h, ign, .inr rfl⟩
  | _ => exact .inl ⟨_, rfl⟩

/-! ### Words and registers -/

/-- Settles O5: each word is evaluated. -/
theorem exampleWordsDecode : Obligations.ExampleWordsDecode := by
  unfold Obligations.ExampleWordsDecode; decide

/-- Settles O6: `Reg.bits_ofBits`, and the eight values. -/
theorem registerFieldNamesRegister : Obligations.RegisterFieldNamesRegister := ⟨Reg.bits_ofBits, rfl⟩

end Sys2Proof.Proofs
end

section
/-! PROOFS. The operate instructions (40_operate.md R110 to R115): each defines one result, with its flag (10_state.md
R26), and changes nothing else. -/

namespace Sys2Proof.Proofs
open Sys2Proof Sys2Proof.Machine

/-- The sign bit, as a comparison of the value (R26). -/
theorem getLsbD_15_eq_decide (v : Word) : v.getLsbD 15 = decide (0x8000 ≤ v.toNat) := v.msb_eq_decide

/-- The write of a result with its flag update defines that result and changes nothing else (R26, R115). -/
theorem setResult_definesResult (s : State) (dr : Reg) (v : Word) : DefinesResult s (s.setResult dr v) dr v := by
  obtain ⟨hneg, hzero, hpos, -⟩ := setccFollowsSign (s.setReg dr v) v
  rw [getLsbD_15_eq_decide, decide_eq_true_iff] at hneg
  rw [getLsbD_15_eq_decide, decide_eq_false_iff_not] at hpos
  exact
    { written := s.setResult_reg_same dr v
      others := fun _ hr => s.setResult_reg_other v hr
      negative := hneg
      zero := fun h => hzero (BitVec.eq_of_toNat_eq h)
      positive := fun h0 h => hpos (Nat.not_le.2 h) fun hv => by simp [hv] at h0
      frame := rfl }

/-- The same, for a result that reads differently in the spec. -/
theorem setResult_definesResult_of_eq {s : State} {dr : Reg} {v w : Word} (h : v = w) :
    DefinesResult s (s.setResult dr v) dr w := h ▸ setResult_definesResult s dr v

/-- A result computed bitwise: the register it is written to has those bits (R112, R113). -/
theorem setResult_and (s : State) (dr : Reg) (a b : Word) :
    (∀ k, ((s.setResult dr (a &&& b)).reg dr).getLsbD k = (a.getLsbD k && b.getLsbD k)) ∧
    DefinesResult s (s.setResult dr (a &&& b)) dr ((s.setResult dr (a &&& b)).reg dr) := by
  rw [State.setResult_reg_same]
  exact ⟨fun _ => BitVec.getLsbD_and, setResult_definesResult s dr _⟩

/-- The sum of two words is that of their values modulo 65536 (R115, D30). -/
theorem add_eq_ofNat_mod (a b : Word) : a + b = BitVec.ofNat 16 ((a.toNat + b.toNat) % 65536) :=
  BitVec.eq_of_toNat_eq (by rw [BitVec.toNat_add, BitVec.toNat_ofNat]; omega)

/-- The complement of a word, over exactly 16 bits (R114). -/
theorem not_eq_ofNat_sub (a : Word) : ~~~a = BitVec.ofNat 16 (65535 - a.toNat) :=
  BitVec.eq_of_toNat_eq (by rw [BitVec.toNat_not, BitVec.toNat_ofNat]; omega)

/-- Settles O12: the result is `add_eq_ofNat_mod` of the two registers. -/
theorem addRegisterMode : Obligations.AddRegisterMode :=
  ⟨fun _ op mode => decode_of_readsAs (.addReg op mode rfl rfl rfl), fun _ _ _ _ =>
    ⟨_, rfl, setResult_definesResult_of_eq (add_eq_ofNat_mod _ _)⟩⟩

/-- Settles O13: the result is `add_eq_ofNat_mod` of the register and the sign-extended immediate. -/
theorem addImmediateMode : Obligations.AddImmediateMode :=
  ⟨fun _ op mode => decode_of_readsAs (.addImm op mode rfl rfl rfl), fun _ _ _ _ =>
    ⟨_, rfl, setResult_definesResult_of_eq (add_eq_ofNat_mod _ _)⟩⟩

/-- Settles O14: the result is `setResult_and` of the two registers. -/
theorem andRegisterMode : Obligations.AndRegisterMode :=
  ⟨fun _ op mode => decode_of_readsAs (.andReg op mode rfl rfl rfl), fun dr _ _ s =>
    ⟨_, rfl, setResult_and s dr _ _⟩⟩

/-- Settles O15: the result is `setResult_and` of the register and the sign-extended immediate. -/
theorem andImmediateMode : Obligations.AndImmediateMode :=
  ⟨fun _ op mode => decode_of_readsAs (.andImm op mode rfl rfl rfl), fun dr _ _ s =>
    ⟨_, rfl, setResult_and s dr _ _⟩⟩

/-- Settles O16: the result is `not_eq_ofNat_sub` of the register. -/
theorem notInvertsSixteenBits : Obligations.NotInvertsSixteenBits :=
  ⟨fun _ op => decode_of_readsAs (.not op rfl rfl), fun _ _ _ =>
    ⟨_, rfl, setResult_definesResult_of_eq (not_eq_ofNat_sub _)⟩⟩

end Sys2Proof.Proofs
end

section
/-! PROOFS. The control instructions (41_control.md R120 to R124): a mask test, a register target, and the two jumps
that save the return address in R7. -/

namespace Sys2Proof.Proofs
open Sys2Proof Sys2Proof.Machine

/-- The mask test of BR, by the flag state that holds (R27, R120; the bits are those of D2). -/
theorem branchTaken_iff (mask : BitVec 3) (c : Cond) : branchTaken mask c = true ↔
    (mask.getLsbD 2 = true ∧ c = .negative) ∨ (mask.getLsbD 1 = true ∧ c = .zero) ∨
      (mask.getLsbD 0 = true ∧ c = .positive) := by
  cases c <;> revert mask <;> decide

/-- What a register reads after a write to any register. -/
theorem setReg_reg (s : State) (r q : Reg) (v : Word) :
    (s.setReg r v).reg q = if q = r then v else s.reg q := by
  split
  next h => rw [h, State.setReg_reg_same]
  next h => exact s.setReg_reg_other v h

/-- A jump that saves the return address changes R7 and `pc` and nothing else (R122, R123). -/
theorem exec_saves_return {i : Instr} {s : State} {target : Word}
    (h : exec i s = .next ((s.setReg .r7 s.pc).setPc target)) :
    ∃ t, exec i s = .next t ∧ t.reg .r7 = s.pc ∧ t.pc = target ∧ KeepsOthers s t [.r7] ∧
      t = { s with regs := t.regs, pc := t.pc } :=
  ⟨_, h, s.setReg_reg_same .r7 s.pc, rfl,
    fun _ hr => s.setReg_reg_other s.pc (List.ne_of_not_mem_cons hr), rfl⟩

/-- JSRR jumps to the base register as it reads after R7 is written (D29). -/
theorem exec_jsrr (base : Reg) (s : State) : exec (.jsrr base) s =
    .next ((s.setReg .r7 s.pc).setPc (if base = .r7 then s.pc else s.reg base)) := by
  rw [← setReg_reg]
  rfl

/-- Settles O17: the two outcomes are those of the mask test, `branchTaken_iff`. -/
theorem brTestsMask : Obligations.BrTestsMask := by
  refine ⟨fun _ op => decode_of_readsAs (.br op rfl rfl), fun mask off9 s => ⟨_, rfl, ?_, ?_⟩⟩ <;>
    rw [← branchTaken_iff]
  · exact fun taken => if_pos taken
  · exact fun notTaken => if_neg notTaken

/-- Settles O18: the word reads as JMP, whose next state is written out by its definition. -/
theorem jmpTakesRegister : Obligations.JmpTakesRegister :=
  ⟨fun _ op => decode_of_readsAs (.jmp op rfl), fun _ _ => rfl⟩

/-- Settles O19: `exec_saves_return`, to the pc-relative target. -/
theorem jsrSavesReturnAddress : Obligations.JsrSavesReturnAddress :=
  ⟨fun _ op mode => decode_of_readsAs (.jsr op mode rfl), fun _ _ => exec_saves_return rfl⟩

/-- Settles O20: `exec_saves_return`, to the target of `exec_jsrr`. -/
theorem jsrrReadsBaseAfterSave : Obligations.JsrrReadsBaseAfterSave :=
  ⟨fun _ op mode => decode_of_readsAs (.jsrr op mode rfl), fun base s => exec_saves_return (exec_jsrr base s)⟩

end Sys2Proof.Proofs
end

section
/-! PROOFS. The loads and stores (42_load_store.md R130 to R137): a load is one `MemRead` of its address and a result,
a store one `MemWrite`; LDI and STI read their pointer first. -/

namespace Sys2Proof.Proofs
open Sys2Proof Sys2Proof.Machine

/-- The end of a load defines the word its `MemRead` answers, on the state that read leaves (R137). -/
theorem load_definesResult (s : State) (dr : Reg) (ea : Word) :
    DefinesResult (s.memRead ea).2 (s.load dr ea) dr (s.memRead ea).1 := setResult_definesResult _ dr _

/-- Settles O21: `load_definesResult` at the pc-relative address. -/
theorem ldLoadsPcRelative : Obligations.LdLoadsPcRelative :=
  ⟨fun _ op => decode_of_readsAs (.ld op rfl rfl), fun dr _ s => ⟨_, rfl, load_definesResult s dr _⟩⟩

/-- Settles O22: `load_definesResult` at the pointer, in the state that the pointer's read leaves. -/
theorem ldiLoadsIndirect : Obligations.LdiLoadsIndirect :=
  ⟨fun _ op => decode_of_readsAs (.ldi op rfl rfl), fun dr off9 s =>
    ⟨_, rfl, load_definesResult (s.indirect9 off9).2 dr _⟩⟩

/-- Settles O23: `load_definesResult` at base plus offset, an address taken before the destination is written. -/
theorem ldrLoadsBaseOffset : Obligations.LdrLoadsBaseOffset :=
  ⟨fun _ op => decode_of_readsAs (.ldr op rfl rfl rfl), fun dr _ _ s => ⟨_, rfl, load_definesResult s dr _⟩⟩

/-- Settles O24: the result is `add_eq_ofNat_mod` of `pc` and the sign-extended offset. -/
theorem leaDeliversAddress : Obligations.LeaDeliversAddress :=
  ⟨fun _ op => decode_of_readsAs (.lea op rfl rfl), fun _ _ _ =>
    ⟨_, rfl, setResult_definesResult_of_eq (add_eq_ofNat_mod _ _)⟩⟩

/-- Settles O25: one `MemWrite` (O43) at the pc-relative address. -/
theorem stStoresPcRelative : Obligations.StStoresPcRelative :=
  ⟨fun _ op => decode_of_readsAs (.st op rfl rfl), fun _ _ s => ⟨_, rfl, memWriteIsPlain s _ _⟩⟩

/-- Settles O26: one `MemWrite` (O43) at the pointer, in the state that the pointer's read leaves. -/
theorem stiStoresIndirect : Obligations.StiStoresIndirect :=
  ⟨fun _ op => decode_of_readsAs (.sti op rfl rfl), fun _ off9 s =>
    ⟨_, rfl, memWriteIsPlain (s.indirect9 off9).2 _ _⟩⟩

/-- Settles O27: one `MemWrite` (O43) at base plus offset. -/
theorem strStoresBaseOffset : Obligations.StrStoresBaseOffset :=
  ⟨fun _ op => decode_of_readsAs (.str op rfl rfl rfl), fun _ _ _ s => ⟨_, rfl, memWriteIsPlain s _ _⟩⟩

end Sys2Proof.Proofs
end

section
/-! PROOFS. TRAP and its service routines (43_trap.md R150 to R157): what a TRAP leaves in the registers; HALT and
the undefined vectors; and the character routines, from the answer of each request. -/

namespace Sys2Proof.Proofs
open Sys2Proof Sys2Proof.Machine

/-! ### The registers after a TRAP -/

section

variable {s t : State}

/-! A TRAP that writes R7 alone (R150, R189). -/

theorem trapEnter_r7 (h : t.regs = s.trapEnter.regs) : t.reg .r7 = s.pc := by
  rw [State.reg_eq, h]
  exact s.setReg_reg_same .r7 s.pc

theorem trapEnter_keepsOthers (h : t.regs = s.trapEnter.regs) : KeepsOthers s t [.r7] := fun r hr => by
  rw [State.reg_eq, h]
  exact s.setReg_reg_other s.pc (List.ne_of_not_mem_cons hr)

/-! GETC and IN, which write the character into R0 after R7 (R151, R154). -/

theorem trapEnter_char_r0 {c : Nat} (h : t.regs = (s.trapEnter.setReg .r0 (charWord c)).regs) :
    t.reg .r0 = BitVec.ofNat 16 (c % 256) := by
  rw [State.reg_eq, h, ← charWord_eq_ofNat]
  exact s.trapEnter.setReg_reg_same .r0 _

theorem trapEnter_char_r7 {v : Word} (h : t.regs = (s.trapEnter.setReg .r0 v).regs) : t.reg .r7 = s.pc := by
  rw [State.reg_eq, h]
  exact (s.trapEnter.setReg_reg_other v (by decide)).trans (trapEnter_r7 rfl)

theorem trapEnter_char_keepsOthers {v : Word} (h : t.regs = (s.trapEnter.setReg .r0 v).regs) :
    KeepsOthers s t [.r0, .r7] := fun r hr => by
  rw [State.reg_eq, h]
  exact (s.trapEnter.setReg_reg_other v (List.ne_of_not_mem_cons hr)).trans
    (trapEnter_keepsOthers rfl r (List.not_mem_of_not_mem_cons hr))

end

/-! ### Characters as numbers (R10, R51, R155) -/

theorem lowByte_eq_ofNat (w : Word) : lowByte w = BitVec.ofNat 8 (w.toNat % 256) :=
  BitVec.eq_of_toNat_eq (by simp [lowByte])

theorem highByte_eq_ofNat (w : Word) : highByte w = BitVec.ofNat 8 (w.toNat / 256) :=
  BitVec.eq_of_toNat_eq (by simp [highByte, Nat.shiftRight_eq_div_pow])

theorem highByte_eq_zero_iff (w : Word) : highByte w = 0#8 ↔ w.toNat / 256 = 0 := by
  have hw := w.isLt
  rw [highByte_eq_ofNat, ← BitVec.toNat_inj, BitVec.toNat_ofNat, BitVec.toNat_ofNat]
  omega

theorem lowByte_charWord (c : Nat) : lowByte (charWord c) = BitVec.ofNat 8 (c % 256) := by
  rw [lowByte_eq_ofNat, charWord_toNat, Nat.mod_mod]

/-- A character is never negative (R26, R154). -/
theorem condOf_charWord (c : Nat) : condOf (charWord c) = if c % 256 = 0 then .zero else .positive := by
  have hsign : (charWord c).getLsbD 15 = false := by
    rw [getLsbD_15_eq_decide, charWord_toNat, decide_eq_false_iff_not]; omega
  have hzero : charWord c = 0#16 ↔ c % 256 = 0 := by rw [← BitVec.toNat_inj, charWord_toNat]; rfl
  simp only [condOf, hsign, hzero]
  rfl

/-! ### HALT and undefined vectors -/

/-- Settles O33: the entry of the trap, then `halt`. -/
theorem haltEndsRun : Obligations.HaltEndsRun :=
  ⟨fun _ op vect => decode_of_readsAs (.trapHalt op vect rfl), fun _ _ =>
    ⟨_, rfl, rfl, trapEnter_r7 rfl, trapEnter_keepsOthers rfl, rfl⟩⟩

/-- Settles O34: the entry of the trap, then `raise` (D11). -/
theorem undefinedVectorFaults : Obligations.UndefinedVectorFaults := by
  refine ⟨fun w op hv => ?_, fun ign vect s => ?_⟩
  · have undefined : definedVector (fieldVect w) = false := by
      simp only [definedVector, Bool.and_eq_false_iff, decide_eq_false_iff_not]
      omega
    exact decode_of_readsAs (.trapOther op undefined rfl rfl)
  · exact ⟨_, rfl, ⟨rfl, rfl⟩, trapEnter_r7 rfl, trapEnter_keepsOthers rfl, rfl⟩

/-! ### The character routines -/

section

variable {s : State} {c : Nat} {rest : List Nat}

/-- The trap entered and the character `c` taken into R0, `rest` pending behind it: the end of GETC, and where IN
asks for the echo. -/
def withChar (s : State) (c : Nat) (rest : List Nat) : State :=
  ({ s.arrive with kbd := rest } : State).trapEnter.setReg .r0 (charWord c)

theorem execTrapGetc_char (ign : BitVec 4) (hf : s.turn.fail = false) (hp : pendingInput s = c :: rest) :
    exec (.trapGetc ign) s = .next (withChar s c rest) := by
  simp only [exec, execTrapGetc, kbdRead_char hf hp, withChar]

theorem execTrapGetc_fails (ign : BitVec 4) (hf : s.turn.fail = true) :
    exec (.trapGetc ign) s = .next (s.arrive.trapEnter.raise (.ioError .kbd) (encode (.trapGetc ign))) := by
  simp only [exec, execTrapGetc, kbdRead_fail hf]

theorem execTrapIn_fails (ign : BitVec 4) (hf : s.turn.fail = true) :
    exec (.trapIn ign) s = .next (s.arrive.trapEnter.raise (.ioError .kbd) (encode (.trapIn ign))) := by
  simp only [exec, execTrapIn, kbdRead_fail hf]

theorem execTrapIn_echoes (ign : BitVec 4) (hf : s.turn.fail = false) (hp : pendingInput s = c :: rest)
    (he : s.arrive.turn.fail = false) :
    exec (.trapIn ign) s = .next
      (({ (withChar s c rest).arrive with con := s.con ++ [lowByte (charWord c)] } : State).setcc (charWord c)) := by
  have echo := conOut_ok (s := withChar s c rest) (lowByte (charWord c)) he
  simp only [withChar] at echo
  simp only [exec, execTrapIn, kbdRead_char hf hp, echo]
  rfl

theorem execTrapIn_echo_fails (ign : BitVec 4) (hf : s.turn.fail = false) (hp : pendingInput s = c :: rest)
    (he : s.arrive.turn.fail = true) :
    exec (.trapIn ign) s = .next ((withChar s c rest).arrive.raise (.ioError .con) (encode (.trapIn ign))) := by
  have echo := conOut_fail (s := withChar s c rest) (lowByte (charWord c)) he
  simp only [withChar] at echo
  simp only [exec, execTrapIn, kbdRead_char hf hp, echo]
  rfl

/-- What a request that fails right after the entry of the trap leaves behind: R7, the environment's turn and the
fault (R184, R185). The same for either interface. -/
theorem request_fails {failed : Interface} {ir : Word} {o : Host.Outcome State Fault Refusal}
    (h : o = .next (s.arrive.trapEnter.raise (.ioError failed) ir)) :
    ∃ t, o = .next t ∧ FaultedWith t (.ioError failed) ir ∧ t.reg .r7 = s.pc ∧ KeepsOthers s t [.r7] ∧
      t = { s with regs := t.regs, kbd := pendingInput s, turns := s.turns.tail, status := t.status,
                   faultRecord := t.faultRecord } :=
  ⟨_, h, ⟨rfl, rfl⟩, trapEnter_r7 rfl, trapEnter_keepsOthers rfl, rfl⟩

theorem execTrapOut_emits (ign : BitVec 4) (hf : s.turn.fail = false) :
    exec (.trapOut ign) s =
      .next { s.trapEnter.arrive with con := s.con ++ [lowByte (s.reg .r0)] } := by
  simp only [exec, execTrapOut, conOut_ok (s := s.trapEnter) _ hf]
  rfl

theorem execTrapOut_fails (ign : BitVec 4) (hf : s.turn.fail = true) :
    exec (.trapOut ign) s = .next (s.arrive.trapEnter.raise (.ioError .con) (encode (.trapOut ign))) := by
  simp only [exec, execTrapOut, conOut_fail (s := s.trapEnter) _ hf]
  rfl

end

/-- Settles O28: the two answers of the keyboard (the third is O37's). -/
theorem getcReadsCharacter : Obligations.GetcReadsCharacter :=
  ⟨fun _ op vect => decode_of_readsAs (.trapGetc op vect rfl), fun ign _ _ _ hf hp =>
    ⟨_, execTrapGetc_char ign hf hp, trapEnter_char_r0 rfl, trapEnter_char_r7 rfl,
      trapEnter_char_keepsOthers rfl, rfl⟩, fun ign _ hf => request_fails (execTrapGetc_fails ign hf)⟩

/-- Settles O29: the two answers of the console. -/
theorem outEmitsLowByte : Obligations.OutEmitsLowByte :=
  ⟨fun _ op vect => decode_of_readsAs (.trapOut op vect rfl), fun ign _ hf =>
    ⟨_, execTrapOut_emits ign hf, by rw [lowByte_eq_ofNat], trapEnter_r7 rfl, trapEnter_keepsOthers rfl, rfl⟩,
    fun ign _ hf => request_fails (execTrapOut_fails ign hf)⟩

/-- Settles O32: the answer of the keyboard, then that of the console. -/
theorem inReadsEchoesAndSetsFlags : Obligations.InReadsEchoesAndSetsFlags := by
  refine ⟨fun _ op vect => decode_of_readsAs (.trapIn op vect rfl), fun ign s c rest hf hp he => ?_,
    fun ign s c rest hf hp he => ?_, fun ign s hf => request_fails (execTrapIn_fails ign hf)⟩
  · exact ⟨_, execTrapIn_echoes ign hf hp he, trapEnter_char_r0 rfl, trapEnter_char_r7 rfl,
      trapEnter_char_keepsOthers rfl, by rw [← lowByte_charWord]; rfl, condOf_charWord c, rfl⟩
  · exact ⟨_, execTrapIn_echo_fails ign hf hp he, ⟨rfl, rfl⟩, trapEnter_char_r0 rfl, trapEnter_char_r7 rfl,
      trapEnter_char_keepsOthers rfl, rfl⟩

end Sys2Proof.Proofs
end

section
/-! PROOFS. PUTS and PUTSP (43_trap.md R153, R155): how a scan that polls at `0xFE00` ends (20_memory.md R53), then one
theorem about a string scan after the entry of a TRAP, clause by clause, of which the two routines are instances. -/

namespace Sys2Proof.Proofs
open Sys2Proof Sys2Proof.Machine

/-! ### The bytes of a word -/

theorem putsBytes_eq : putsBytes = fun w => [BitVec.ofNat 8 (w.toNat % 256)] :=
  funext fun w => by rw [putsBytes, lowByte_eq_ofNat]

theorem putspBytes_eq : putspBytes = fun w =>
    if w.toNat / 256 = 0 then [BitVec.ofNat 8 (w.toNat % 256)]
    else [BitVec.ofNat 8 (w.toNat % 256), BitVec.ofNat 8 (w.toNat / 256)] :=
  funext fun w => by
    simp only [putspBytes, highByte_eq_zero_iff]
    rw [lowByte_eq_ofNat, highByte_eq_ofNat]

/-! ### A scan that polls at `0xFE00` -/

/-- The memory of `s` once a poll has latched the key `c` into KBSR and KBDR (R52). -/
def Latched (s : State) (c : Nat) (mem : Memory) : Prop := ∀ a, mem.read a =
  if a = kbdrAddr then charWord c else if a = kbsrAddr then kbsrReady else s.mem.read a

section

variable {s : State} {c : Nat} {mem : Memory}

theorem Latched.kbsr (h : Latched s c mem) : mem.read 0xFE00#16 = 0x8000#16 := h _

theorem Latched.kbdr (h : Latched s c mem) : mem.read 0xFE02#16 = BitVec.ofNat 16 (c % 256) :=
  (h _).trans (charWord_eq_ofNat c)

theorem Latched.others (h : Latched s c mem) (a : Word) (h0 : a ≠ 0xFE00#16) (h2 : a ≠ 0xFE02#16) :
    mem.read a = s.mem.read a :=
  (h a).trans ((if_neg h2).trans (if_neg h0))

/-- The scan goes on in the memory of `s` with KBDR written, but for the cell `0xFE00`. -/
theorem Latched.read_eq_memWrite (h : Latched s c mem) (a : Word) (h0 : a ≠ kbsrAddr) :
    mem.read a = (s.memWrite kbdrAddr (charWord c)).mem.read a := by
  rw [h a, if_neg h0, State.memWrite_mem, Memory.read_write]

end

/-- `s` once `n` requests are answered, the last of them a poll that left the memory `mem` and the keys `rest`, and then
`m` console requests; `bytes` have been emitted by both. -/
def afterPoll (s : State) (n m : Nat) (bytes : List Byte) (mem : Memory) (rest : List Nat) : State :=
  { afterRequests s (n + m) bytes with mem := mem, kbd := rest ++ arriving s n m }

theorem afterRequests_latched (s : State) (n m : Nat) (bs cs : List Byte) (mem : Memory) (rest : List Nat) :
    afterRequests { afterRequests s n bs with mem := mem, kbd := rest } m cs =
      afterPoll s n m (bs ++ cs) mem rest := by
  have harrive : arriving { afterRequests s n bs with mem := mem, kbd := rest } 0 m = arriving s n m :=
    arriving_afterRequests s n 0 m bs
  rw [afterRequests, harrive]
  simp [afterPoll, afterRequests]

section

variable {out : Word → List Byte} {s : State} {start : Word} {ws ws' : List Word} {c m : Nat} {rest : List Nat}

theorem scan_words_poll_empty (hm : 65536 ≤ m) (h : WordsAt s start ws)
    (he : start + BitVec.ofNat 16 ws.length = kbsrAddr)
    (hf : ∀ j < (ws.flatMap out).length, (turnAt s j).fail = false)
    (hk : s.kbd ++ arriving s 0 ((ws.flatMap out).length + 1) = []) :
    scan out m start s =
      .done ((afterRequests s ((ws.flatMap out).length + 1) (ws.flatMap out)).memWrite kbsrAddr 0#16) := by
  obtain ⟨n, rfl⟩ : ∃ n, m = ws.length + (n + 1) := ⟨m - ws.length - 1, by have := h.length_lt; omega⟩
  rw [arriving_add, ← List.append_assoc, Nat.zero_add] at hk
  rw [scan_words _ h hf, he, scan_poll_empty (by rw [arriving_afterRequests]; exact hk), afterRequests_add,
    List.append_nil]

section

variable (hm : 131072 ≤ m) (h : WordsAt s start ws) (he : start + BitVec.ofNat 16 ws.length = kbsrAddr)
  (hf : ∀ j < (ws.flatMap out).length, (turnAt s j).fail = false)
  (hk : s.kbd ++ arriving s 0 ((ws.flatMap out).length + 1) = c :: rest)
include hm h he hf hk

/-- The poll takes the key `c`, and the string behind it ends with no byte failed. -/
theorem scan_words_poll_key_string
    (hs : StringAt (s.memWrite kbdrAddr (charWord c)) (kbsrAddr + 1#16) ws')
    (hf' : ∀ j < (out kbsrReady ++ ws'.flatMap out).length,
      (turnAt s ((ws.flatMap out).length + 1 + j)).fail = false) :
    ∃ mem, Latched s c mem ∧ scan out m start s =
      .done (afterPoll s ((ws.flatMap out).length + 1) (out kbsrReady ++ ws'.flatMap out).length
        (ws.flatMap out ++ (out kbsrReady ++ ws'.flatMap out)) mem rest) := by
  obtain ⟨u, n, hn, hscan, hturns, hlatched, hu⟩ := scan_words_poll_key hm h he hf hk
  simp only [List.length_append, ← hturns] at hf'
  have hstring : StringAt (afterRequests u (out kbsrReady).length (out kbsrReady)) (kbsrAddr + 1#16) ws' :=
    hs.congr (Latched.read_eq_memWrite hlatched)
  rw [conOutAll_done (out kbsrReady) fun j hj => hf' j (Nat.lt_add_right _ hj)] at hscan
  have hlt := hs.1.length_lt
  refine ⟨u.mem, hlatched, (hscan.trans (scan_string hstring (by omega) fun j hj => ?_)).trans ?_⟩
  · rw [turnAt_afterRequests]
    exact hf' _ (Nat.add_lt_add_left hj _)
  · rw [afterRequests_add, ← List.length_append, ← afterRequests_latched, ← hu]

/-- The poll takes the key `c`, and of the bytes from its word on the one of number `k` is the first that fails. -/
theorem scan_words_poll_key_fails {k : Nat}
    (hs : WordsAt (s.memWrite kbdrAddr (charWord c)) (kbsrAddr + 1#16) ws')
    (hlt : k < (out kbsrReady ++ ws'.flatMap out).length)
    (hf' : ∀ j < k, (turnAt s ((ws.flatMap out).length + 1 + j)).fail = false)
    (hx : (turnAt s ((ws.flatMap out).length + 1 + k)).fail = true) :
    ∃ mem, Latched s c mem ∧ scan out m start s =
      .failed (afterPoll s ((ws.flatMap out).length + 1) (k + 1)
        (ws.flatMap out ++ (out kbsrReady ++ ws'.flatMap out).take k) mem rest) := by
  obtain ⟨u, n, hn, hscan, hturns, hlatched, hu⟩ := scan_words_poll_key hm h he hf hk
  simp only [← hturns] at hf' hx
  refine ⟨u.mem, hlatched, ?_⟩
  rw [← afterRequests_latched, ← hu]
  by_cases hkey : k < (out kbsrReady).length
  · rw [conOutAll_fails hkey hf' hx] at hscan
    rw [List.take_append_of_le_length (Nat.le_of_lt hkey)]
    exact hscan
  · obtain ⟨i, rfl⟩ := Nat.exists_eq_add_of_le (Nat.le_of_not_lt hkey)
    have hwords : WordsAt (afterRequests u (out kbsrReady).length (out kbsrReady)) (kbsrAddr + 1#16) ws' :=
      hs.congr (Latched.read_eq_memWrite hlatched)
    rw [conOutAll_done (out kbsrReady) fun j hj => hf' j (Nat.lt_add_right _ hj)] at hscan
    rw [List.length_append] at hlt
    refine (hscan.trans (scan_words_fails (k := i) hwords (by have := hs.length_lt; omega) (by omega)
      (fun j hj => ?_) ?_)).trans ?_
    · rw [turnAt_afterRequests]
      exact hf' _ (Nat.add_lt_add_left hj _)
    · rw [turnAt_afterRequests]
      exact hx
    · rw [afterRequests_add, ← Nat.add_assoc, List.take_length_add_append]

end

end

/-! ### A scan after the entry of a TRAP -/

/-- A scan that the bound does not cut short prints its string. -/
theorem finishScan_printsString (out : Word → List Byte) {m : Nat} (hm : 131072 ≤ m) (start ir : Word) (s : State) :
    PrintsString out start ir s (finishScan ir (scan out m start s.trapEnter)) := by
  have entered {a : Word} {ws : List Word} (h : WordsAt s a ws) : WordsAt s.trapEnter a ws := h.congr fun _ _ => rfl
  constructor
  case ends =>
    intro ws hs hf
    have hend : StringAt s.trapEnter start ws := hs.congr fun _ _ => rfl
    rw [scan_string hend (by have := hs.1.length_lt; omega) hf]
    exact ⟨_, rfl, trapEnter_r7 rfl, trapEnter_keepsOthers rfl, rfl⟩
  case fails =>
    intro ws k hws hk hf hx
    rw [scan_words_fails (entered hws) (by have := hws.length_lt; omega) hk hf hx]
    exact ⟨_, rfl, ⟨rfl, rfl⟩, trapEnter_r7 rfl, trapEnter_keepsOthers rfl, rfl⟩
  case pollsEmpty =>
    intro ws hws he hf hk
    rw [scan_words_poll_empty (by omega) (entered hws) he hf hk]
    exact ⟨_, rfl, trapEnter_r7 rfl, trapEnter_keepsOthers rfl, memWrite_read_same _ _ _,
      fun _ ha => memWrite_read_other _ _ ha, rfl⟩
  case pollsKey =>
    intro ws ws' c rest hws he hf hk hs hf'
    rw [← charWord_eq_ofNat] at hs
    obtain ⟨mem, hmem, hscan⟩ := scan_words_poll_key_string hm (entered hws) he hf hk (hs.congr fun _ _ => rfl) hf'
    rw [hscan]
    exact ⟨_, rfl, trapEnter_r7 rfl, trapEnter_keepsOthers rfl, hmem.kbsr, hmem.kbdr, hmem.others, rfl⟩
  case pollsKeyFails =>
    intro ws ws' c rest k hws he hf hk hs hlt hf' hx
    rw [← charWord_eq_ofNat] at hs
    obtain ⟨mem, hmem, hscan⟩ :=
      scan_words_poll_key_fails hm (entered hws) he hf hk (hs.congr fun _ _ => rfl) hlt hf' hx
    rw [hscan]
    exact ⟨_, rfl, ⟨rfl, rfl⟩, trapEnter_r7 rfl, trapEnter_keepsOthers rfl, hmem.kbsr, hmem.kbdr, hmem.others,
      rfl⟩

/-- Settles O30: `finishScan_printsString`, from R0. -/
theorem putsPrintsString : Obligations.PutsPrintsString := by
  refine ⟨fun _ op vect => decode_of_readsAs (.trapPuts op vect rfl), fun ign s => ?_⟩
  rw [← putsBytes_eq]
  exact finishScan_printsString putsBytes (scanBound_ge s) (s.reg .r0) _ s

theorem putspStart_eq {s : State} {start : Word} (h0 : s.config.putspBase = .fixedZero → start = 0#16)
    (hr0 : s.config.putspBase = .fromR0 → start = s.reg .r0) : putspStart s = start := by
  unfold putspStart
  split
  next hb => exact (h0 hb).symm
  next hb => exact (hr0 hb).symm

/-- Settles O31: `finishScan_printsString`, from the start that the parameter `PUTSP_BASE` gives. -/
theorem putspPrintsPackedString : Obligations.PutspPrintsPackedString := by
  refine ⟨fun _ op vect => decode_of_readsAs (.trapPutsp op vect rfl), fun ign s start h0 hr0 => ?_⟩
  have hstart : putspStart s.trapEnter = start := putspStart_eq (s := s.trapEnter) h0 hr0
  rw [← putspBytes_eq, ← hstart]
  exact finishScan_printsString putspBytes (scanBound_ge s) _ _ s

end Sys2Proof.Proofs
end

section
/-! PROOFS. The reserved and the undefined opcode (44_reserved.md R170, R171): one theorem about an instruction that
raises IllegalOpcode at once, of which the two opcodes are instances. -/

namespace Sys2Proof.Proofs
open Sys2Proof Sys2Proof.Machine

/-- The fault record gives the instruction's own opcode number, by `opcodeField_encode` (R32, R90, R182). -/
theorem exec_raises_illegalOpcode {i : Instr} {s : State}
    (h : exec i s = .next (s.raise .illegalOpcode (encode i))) :
    ∃ t r, exec i s = .next t ∧ t.status = .faulted ∧ t.faultRecord = some r ∧ r.cause = .illegalOpcode ∧
      r.ir = encode i ∧ r.opcode = i.opcode ∧ r.faultPc = s.pc ∧ r.faultAddr = s.pc - 1#16 ∧
      t = { s with status := t.status, faultRecord := t.faultRecord } :=
  have opcode : opcodeField (encode i) = i.opcode := opcodeField_encode i
  ⟨_, _, h, State.raise_status .., State.raise_faultRecord .., rfl, rfl, opcode, rfl, rfl, rfl⟩

/-- Settles O35: `exec_raises_illegalOpcode`, at opcode 13. -/
theorem reservedOpcodeFaults : Obligations.ReservedOpcodeFaults :=
  ⟨fun _ op => decode_of_readsAs (.res op rfl), fun _ _ => exec_raises_illegalOpcode rfl⟩

/-- Settles O36: `exec_raises_illegalOpcode`, at opcode 8 (D5). -/
theorem undefinedOpcodeFaults : Obligations.UndefinedOpcodeFaults :=
  ⟨fun _ op => decode_of_readsAs (.undef1000 op rfl), fun _ _ => exec_raises_illegalOpcode rfl⟩

end Sys2Proof.Proofs
end

section
/-! PROOFS. The fatal conditions (60_exceptions.md R180): an instruction that ends the run leaves `pc` alone, so the
record of a step that ends FAULTED holds the address after the word it fetched (10_state.md R32); what `causesOf` lists
for that word is the list of R180. -/

namespace Sys2Proof.Proofs
open Sys2Proof Sys2Proof.Machine

section

variable {i : Instr} {s t : State}

/-! ### An instruction that changes the status leaves `pc` where the fetch has put it (R23, R181) -/

theorem execTrapGetc_status_or_pc {ign : BitVec 4} (h : execTrapGetc ign s = .next t) :
    t.status = s.status ∨ t.pc = s.pc := by
  have read := kbdRead_bus s
  unfold execTrapGetc at h
  split at h <;> rename_i e <;> rw [e] at read <;> cases h
  case h_1 => exact .inl read.status
  case h_2 | h_3 => exact .inr read.pc

theorem execTrapOut_pc {ign : BitVec 4} (h : execTrapOut ign s = .next t) : t.pc = s.pc := by
  have emit := conOut_bus s.trapEnter (lowByte (s.trapEnter.reg .r0))
  unfold execTrapOut at h
  split at h <;> rename_i e <;> rw [e] at emit <;> cases h <;> exact emit.pc

theorem finishScan_pc {bytes : Word → List Byte} {n : Nat} {a ir : Word}
    (h : finishScan ir (scan bytes n a s.trapEnter) = .next t) : t.pc = s.pc := by
  cases e : scan bytes n a s.trapEnter with
  | done u => rw [e] at h; cases h; exact (scan_bus (.inl e)).pc
  | failed u => rw [e] at h; cases h; exact (scan_bus (.inr e)).pc
  | endless => rw [e] at h; cases h

theorem execTrapIn_status_or_pc {ign : BitVec 4} (h : execTrapIn ign s = .next t) :
    t.status = s.status ∨ t.pc = s.pc := by
  have read := kbdRead_bus s
  unfold execTrapIn at h
  split at h <;> rename_i e <;> rw [e] at read
  case h_1 => cases h; exact .inl read.status
  case h_2 => cases h; exact .inr read.pc
  case h_3 c u =>
    have echo := conOut_bus (u.trapEnter.setReg .r0 (charWord c)) (lowByte (charWord c))
    split at h <;> rename_i e' <;> rw [e'] at echo <;> cases h <;> exact .inr (echo.pc.trans read.pc)

/-- What moves `pc` keeps the status: BR and the jumps, and a request that waits (R158). -/
theorem exec_status_or_pc (h : exec i s = .next t) : t.status = s.status ∨ t.pc = s.pc := by
  cases i with
  | trapGetc => exact execTrapGetc_status_or_pc h
  | trapOut => exact .inr (execTrapOut_pc h)
  | trapPuts | trapPutsp => exact .inr (finishScan_pc h)
  | trapIn => exact execTrapIn_status_or_pc h
  | trapHalt | trapOther | res | undef1000 => cases h; exact .inr rfl
  | _ =>
    cases exec_completes h with
    | goesOn h => exact .inl h.status
    | halts h hi => cases hi
    | raises h hc => cases hc

/-! ### The record of a fault -/

/-- The instructions that can fault are the rows that carry their ignored bits: the TRAPs and the two illegal
opcodes. -/
theorem opcode_of_causesOf {cause : Cause} (hc : cause ∈ causesOf i) :
    i.opcode = 0b1111#4 ∨ i.opcode = 0b1101#4 ∨ i.opcode = 0b1000#4 := by
  cases i with
  | trapGetc | trapOut | trapPuts | trapIn | trapPutsp | trapOther => exact .inl rfl
  | res => exact .inr (.inl rfl)
  | undef1000 => exact .inr (.inr rfl)
  | _ => cases hc

theorem encode_decode_of_causesOf {w : Word} {cause : Cause} (hc : cause ∈ causesOf (decode w)) :
    encode (decode w) = w :=
  (encodeDecodeKeepsUsedBits w).2.2 (decode_opcode w ▸ opcode_of_causesOf hc)

/-- A running step that ends FAULTED has recorded a cause of its instruction, the word fetched and `pc + 1`. -/
theorem step_faulted (hs : s.status = .running) (h : step s = .next t) (ht : t.status = .faulted) :
    ∃ cause ∈ causesOf (decode s.fetch.1),
      t.faultRecord = some { cause := cause, ir := s.fetch.1, faultPc := s.pc + 1#16 } := by
  have executed : exec (decode s.fetch.1) s.fetch.2 = .next t := (step_of_memRead hs rfl).symm.trans h
  have running : s.fetch.2.status = .running := (fetch_bus s).status.trans hs
  have hpc : t.pc = s.pc + 1#16 := (exec_status_or_pc executed).resolve_left (by simp [ht, running])
  cases exec_completes executed with
  | goesOn h => simp [h.status, running] at ht
  | halts => cases ht
  | raises h hc => exact ⟨_, hc, by rw [State.raise_faultRecord, encode_decode_of_causesOf hc, ← hpc, State.raise_pc]⟩

end

/-- Settles O50: `step_faulted`; the record fits its cause, and for each cause that is the entry of the list. -/
theorem onlyListedConditionsFault : Obligations.OnlyListedConditionsFault := by
  intro s t hs h ht
  obtain ⟨cause, hc, hrecord⟩ := step_faulted hs h ht
  have fits := consistentRecord_of_causesOf (decode_wf _) hc (s.pc + 1#16)
  rw [encode_decode_of_causesOf hc] at fits
  refine ⟨_, hrecord, rfl, rfl, BitVec.add_sub_cancel .., ?_⟩
  cases cause with
  | illegalOpcode => exact .inl ⟨rfl, by simpa [consistentRecord] using fits⟩
  | invalidTrapVector =>
    obtain ⟨op, undefined⟩ := Bool.and_eq_true_iff.1 fits
    simp only [definedVector, Bool.not_eq_true', Bool.and_eq_false_iff, decide_eq_false_iff_not] at undefined
    exact .inr (.inl ⟨rfl, beq_iff_eq.1 op, by omega⟩)
  | ioError failed =>
    cases failed with
    | kbd => exact .inr (.inr (.inl ⟨rfl, by simpa [consistentRecord] using fits⟩))
    | con =>
      obtain ⟨op, vect⟩ := Bool.and_eq_true_iff.1 fits
      refine .inr (.inr (.inr ⟨rfl, beq_iff_eq.1 op, ?_⟩))
      simp only [Bool.or_eq_true, beq_iff_eq, or_assoc] at vect
      obtain h | h | h | h := vect <;> rw [h] <;> decide

end Sys2Proof.Proofs
end

section
/-! PROOFS. The image format and what a load refuses (20_memory.md R56, 70_reset_and_hazards.md R212, R213): the
parser accepts the big-endian bytes of a list of words, the first of them the origin, and nothing else. -/

namespace Sys2Proof.Proofs
open Sys2Proof Sys2Proof.Machine

/-! ### The bytes of words -/

/-- Words as big-endian pairs of bytes (R56). -/
def bytesOf (ws : List Word) : List Byte := ws.flatMap fun w => [highByte w, lowByte w]

@[simp] theorem bytesOf_cons (w : Word) (ws : List Word) :
    bytesOf (w :: ws) = highByte w :: lowByte w :: bytesOf ws := rfl

@[simp] theorem length_bytesOf (ws : List Word) : (bytesOf ws).length = 2 * ws.length := by
  induction ws with
  | nil => rfl
  | cons w ws ih => simp only [bytesOf_cons, List.length_cons, ih]; omega

/-- The pair number `k` holds the word number `k`. -/
theorem getElem?_bytesOf {ws : List Word} {k : Nat} (hk : k < ws.length) :
    (bytesOf ws)[2 * k]? = some (highByte ws[k]) ∧ (bytesOf ws)[2 * k + 1]? = some (lowByte ws[k]) := by
  induction ws generalizing k with
  | nil => exact absurd hk (Nat.not_lt_zero k)
  | cons w ws ih =>
    cases k with
    | zero => exact ⟨rfl, rfl⟩
    | succ k => exact ih (Nat.lt_of_succ_lt_succ hk)

theorem toNat_eq_bytes (w : Word) : w.toNat = (highByte w).toNat * 256 + (lowByte w).toNat := by
  rw [highByte_eq_ofNat, lowByte_eq_ofNat, BitVec.toNat_ofNat, BitVec.toNat_ofNat]
  omega

/-- The word number `k` is the value of its two bytes. -/
theorem toNat_of_getElem?_bytesOf {ws : List Word} {k : Nat} (hk : k < ws.length) {b0 b1 : Byte}
    (h0 : (bytesOf ws)[2 * k]? = some b0) (h1 : (bytesOf ws)[2 * k + 1]? = some b1) :
    ws[k].toNat = b0.toNat * 256 + b1.toNat := by
  obtain ⟨high, low⟩ := getElem?_bytesOf hk
  cases high.symm.trans h0
  cases low.symm.trans h1
  exact toNat_eq_bytes ws[k]

@[simp] theorem highByte_wordOfBytes (hi lo : Byte) : highByte (wordOfBytes hi lo) = hi :=
  BitVec.extractLsb'_append_eq_left

@[simp] theorem lowByte_wordOfBytes (hi lo : Byte) : lowByte (wordOfBytes hi lo) = lo :=
  BitVec.extractLsb'_append_eq_right

/-! ### What the parser accepts -/

theorem eq_bytesOf_of_payloadWords : ∀ {bytes : List Byte} {ws : List Word},
    payloadWords bytes = .ok ws → bytes = bytesOf ws
  | [], _, h => by cases h; rfl
  | [_], _, h => by cases h
  | hi :: lo :: rest, _, h => by
    rw [payloadWords] at h
    split at h
    · next ws hws => cases h; simp [← eq_bytesOf_of_payloadWords hws]
    · cases h

theorem eq_bytesOf_of_parseImage {bytes : List Byte} {img : Image} (h : parseImage bytes = .ok img) :
    bytes = bytesOf (img.origin :: img.words) := by
  unfold parseImage at h
  split at h
  case h_1 | h_2 => cases h
  case h_3 hi lo rest =>
    split at h
    · next ws hws => cases h; simp [← eq_bytesOf_of_payloadWords hws]
    · cases h

theorem exists_payloadWords : ∀ {bytes : List Byte}, bytes.length % 2 = 0 → ∃ ws, payloadWords bytes = .ok ws
  | [], _ => ⟨[], rfl⟩
  | [_], h => by cases h
  | hi :: lo :: rest, h => by
    obtain ⟨ws, hws⟩ := exists_payloadWords (bytes := rest) (by simp only [List.length_cons] at h; omega)
    exact ⟨wordOfBytes hi lo :: ws, by rw [payloadWords, hws]⟩

/-- A whole header and an even payload are parsed (R213 item 2). -/
theorem exists_parseImage {bytes : List Byte} (h2 : 2 ≤ bytes.length) (heven : bytes.length % 2 = 0) :
    ∃ img, parseImage bytes = .ok img := by
  match bytes with
  | hi :: lo :: rest =>
    obtain ⟨ws, hws⟩ := exists_payloadWords (bytes := rest) (by simp only [List.length_cons] at heven; omega)
    exact ⟨⟨wordOfBytes hi lo, ws⟩, by rw [parseImage, hws]⟩

/-- Settles O59: what is parsed is `bytesOf` of the origin and the words. -/
theorem imageFormatIsBigEndian : Obligations.ImageFormatIsBigEndian := by
  intro bytes img h
  obtain rfl := eq_bytesOf_of_parseImage h
  refine ⟨by simp, fun b0 b1 h0 h1 => ?_, fun k hk b0 b1 h0 h1 => ?_⟩
  · exact toNat_of_getElem?_bytesOf (ws := img.origin :: img.words) (k := 0) (Nat.succ_pos _) h0 h1
  · exact toNat_of_getElem?_bytesOf (ws := img.origin :: img.words) (k := k + 1) (Nat.succ_lt_succ hk) h0 h1

/-- An image that is parsed and fits is booted: the converse of `boot_eq_ok`. -/
theorem exists_boot {bytes : List Byte} {img : Image} (h : parseImage bytes = .ok img)
    (hfits : img.origin.toNat + img.words.length ≤ 65536) (cfg : Config) (kbd : List Nat) (turns : List Turn)
    (lastTurn : Turn) : ∃ s, boot cfg kbd turns lastTurn bytes = .ok s :=
  ⟨_, by simp only [boot, h, State.loadImage, if_pos hfits]; rfl⟩

/-- Settles O60: an accepted image is parsed and fits; its origin and its length are those of the bytes (O59). -/
theorem loadRefusesOnlyBadImages : Obligations.LoadRefusesOnlyBadImages := by
  intro cfg kbd turns lastTurn bytes
  constructor
  · rintro ⟨s, hboot⟩
    obtain ⟨img, hparse, hfits, -⟩ := boot_eq_ok hboot
    obtain ⟨hlen, horigin, -⟩ := imageFormatIsBigEndian bytes img hparse
    refine ⟨by omega, by omega, fun b0 b1 h0 h1 => ?_⟩
    rw [← horigin b0 b1 h0 h1]
    omega
  · rintro ⟨h2, heven, hfits⟩
    obtain ⟨img, hparse⟩ := exists_parseImage h2 heven
    obtain ⟨hlen, horigin, -⟩ := imageFormatIsBigEndian bytes img hparse
    have h0 := List.getElem?_eq_getElem (l := bytes) (i := 0) (by omega)
    have h1 := List.getElem?_eq_getElem (l := bytes) (i := 1) (by omega)
    have hbound := hfits _ _ h0 h1
    rw [← horigin _ _ h0 h1] at hbound
    exact exists_boot hparse (by omega) cfg kbd turns lastTurn

end Sys2Proof.Proofs
end

section
/-! PROOFS. The cycle (70_reset_and_hazards.md R217), and that an instruction which uses neither the keyboard nor
the console does not depend on the environment (R218; 20_memory.md R61). -/

namespace Sys2Proof.Proofs
open Sys2Proof Sys2Proof.Machine

/-- Settles O7: `step_of_memRead`. -/
theorem stepRunsDecodedInstruction : Obligations.StepRunsDecodedInstruction :=
  fun _ hs => step_of_memRead hs rfl

/-! ### Another environment -/

section

variable {i : Instr} {s t : State} (kbd : List Nat) (turns : List Turn) (lastTurn : Turn)

theorem withEnv_load (dr : Reg) {ea : Word} (h : ea ≠ kbsrAddr) :
    (withEnv s kbd turns lastTurn).load dr ea = withEnv (s.load dr ea) kbd turns lastTurn := by
  rw [load_plain dr h, load_plain dr h]; rfl

theorem withEnv_indirect9 {off9 : BitVec 9} (h : s.pcRel9 off9 ≠ kbsrAddr) :
    (withEnv s kbd turns lastTurn).indirect9 off9 =
      ((s.indirect9 off9).1, withEnv (s.indirect9 off9).2 kbd turns lastTurn) := by
  rw [indirect9_plain h]; exact memRead_plain h

/-- Only a read of `0xFE00` and the TRAPs with input or output make requests; what makes none commutes with a change
of the environment. -/
theorem exec_withEnv (hfree : KeyboardFree i s) (h : exec i s = .next t) :
    exec i (withEnv s kbd turns lastTurn) = .next (withEnv t kbd turns lastTurn) := by
  cases i with
  | addReg | addImm | andReg | andImm | not | lea | jmp | jsr | jsrr | st | str | trapHalt | trapOther | res |
    undef1000 => cases h; rfl
  | br mask off9 =>
    cases h
    simp only [exec, execBr, show (withEnv s kbd turns lastTurn).cond = s.cond from rfl]
    split <;> rfl
  | ld dr | ldr dr => cases h; exact congrArg Host.Outcome.next (withEnv_load kbd turns lastTurn dr hfree)
  | ldi dr off9 =>
    obtain ⟨hpointer, hdata⟩ := hfree
    have hread : (s.indirect9 off9).1 ≠ kbsrAddr := by rwa [indirect9_plain hpointer]
    cases h
    simp only [exec, execLdi, withEnv_indirect9 kbd turns lastTurn hpointer, withEnv_load kbd turns lastTurn dr hread]
  | sti sr off9 =>
    cases h
    simp only [exec, execSti, withEnv_indirect9 kbd turns lastTurn hfree]
    rfl
  | trapGetc | trapOut | trapPuts | trapIn | trapPutsp => exact hfree.elim

end

/-- Settles O52: `exec_withEnv`; taken with the state's own environment, it says that the environment is kept. -/
theorem keyboardFreeInstructionsIgnoreInput : Obligations.KeyboardFreeInstructionsIgnoreInput := by
  intro i s t kbd turns lastTurn hfree h
  have own : exec i s = .next (withEnv t s.kbd s.turns s.lastTurn) :=
    exec_withEnv s.kbd s.turns s.lastTurn hfree h
  exact ⟨exec_withEnv kbd turns lastTurn hfree h, Host.Outcome.next.inj (h.symm.trans own)⟩

end Sys2Proof.Proofs
end

section
/-! PROOFS. The waiting GETC and IN (43_trap.md R158), and where every instruction leaves `pc` (10_state.md R24); the
step in a terminal status (R31) and the reset state (R40). -/

namespace Sys2Proof.Proofs
open Sys2Proof Sys2Proof.Machine

section

variable {i : Instr} {s t : State}

/-! ### Waiting -/

/-- A request that waits lets the environment take its turn, and the increment of `pc` is taken back. -/
theorem exec_of_waits (h : Waits i s) : exec i s = .next s.arrive.hold := by
  obtain ⟨⟨ign, rfl | rfl⟩, hf, hp⟩ := h
  · simp only [exec, execTrapGetc, kbdRead_wait hf hp]
  · simp only [exec, execTrapIn, kbdRead_wait hf hp]

/-- What a GETC or IN that does not wait is answered: a failure or a character (R35). -/
theorem answered_of_not_waits (hi : ∃ ign, i = .trapGetc ign ∨ i = .trapIn ign) (hw : ¬Waits i s) :
    s.turn.fail = true ∨ s.turn.fail = false ∧ ∃ c rest, pendingInput s = c :: rest := by
  cases hf : s.turn.fail with
  | true => exact .inl rfl
  | false => exact .inr ⟨rfl, List.exists_cons_of_ne_nil fun hp => hw ⟨hi, hf, hp⟩⟩

theorem opcode_of_waits (h : Waits i s) : i.opcode = 0b1111#4 := by
  obtain ⟨⟨_, rfl | rfl⟩, -⟩ := h <;> rfl

/-- A poll of KBSR reads `0x8000` or `0x0000` (R52), which no TRAP begins with. -/
theorem opcodeField_memRead_kbsr (s : State) : opcodeField (s.memRead kbsrAddr).1 ≠ 0b1111#4 := by
  cases e : s.kbd ++ s.turn.keys with
  | nil => rw [memRead_kbsr_empty e]; exact show opcodeField 0#16 ≠ 0b1111#4 by decide
  | cons c rest => rw [memRead_kbsr_ready e]; exact show opcodeField kbsrReady ≠ 0b1111#4 by decide

/-- The fetch of a TRAP polls nothing: it changes `pc` alone. -/
theorem fetch_of_trap (h : opcodeField s.fetch.1 = 0b1111#4) : s.fetch.2 = s.setPc (s.pc + 1#16) := by
  have hpc : s.pc ≠ kbsrAddr := fun e => opcodeField_memRead_kbsr s (by rw [← e]; exact h)
  rw [State.fetch, memRead_plain hpc]

/-! ### Where `pc` is left (R24) -/

theorem execTrapGetc_pc {ign : BitVec 4} (hw : ¬Waits (.trapGetc ign) s) (h : exec (.trapGetc ign) s = .next t) :
    t.pc = s.pc := by
  obtain hf | ⟨hf, c, rest, hp⟩ := answered_of_not_waits ⟨ign, .inl rfl⟩ hw
  · cases (execTrapGetc_fails ign hf).symm.trans h; rfl
  · cases (execTrapGetc_char ign hf hp).symm.trans h; rfl

theorem execTrapIn_pc {ign : BitVec 4} (hw : ¬Waits (.trapIn ign) s) (h : exec (.trapIn ign) s = .next t) :
    t.pc = s.pc := by
  obtain hf | ⟨hf, c, rest, hp⟩ := answered_of_not_waits ⟨ign, .inr rfl⟩ hw
  · cases (execTrapIn_fails ign hf).symm.trans h; rfl
  · cases he : s.arrive.turn.fail with
    | false => cases (execTrapIn_echoes ign hf hp he).symm.trans h; rfl
    | true => cases (execTrapIn_echo_fails ign hf hp he).symm.trans h; rfl

/-- Only BR and the jumps set `pc`; reads, console requests and the ends of a run leave it. -/
theorem exec_pc (hw : ¬Waits i s) (h : exec i s = .next t) : t.pc = pcAfter i s := by
  cases i with
  | addReg | addImm | andReg | andImm | not | lea | jmp | jsr | st | str | trapHalt | trapOther | res | undef1000 =>
    cases h; rfl
  | br mask off9 =>
    cases h
    simp only [pcAfter, ← branchTaken_iff]
    exact apply_ite State.pc _ _ _
  | jsrr base => cases (exec_jsrr base s).symm.trans h; rfl
  | ld | ldr | sti => cases h; exact (memRead_bus s _).pc
  | ldi => cases h; exact ((memRead_bus s _).trans (memRead_bus _ _)).pc
  | trapGetc => exact execTrapGetc_pc hw h
  | trapOut => exact execTrapOut_pc h
  | trapPuts | trapPutsp => exact finishScan_pc h
  | trapIn => exact execTrapIn_pc hw h

end

/-- Settles O37: the fetch has changed `pc` alone, which `hold` takes back. -/
theorem getcAndInWait : Obligations.GetcAndInWait := by
  intro s hs hw
  have hfetch : s.fetch.2 = s.setPc (s.pc + 1#16) := fetch_of_trap ((decode_opcode _).symm.trans (opcode_of_waits hw))
  have hstep : step s = exec (decode s.fetch.1) s.fetch.2 := step_of_memRead hs rfl
  refine ⟨_, hstep.trans (exec_of_waits hw), ?_⟩
  obtain ⟨-, -, hpending⟩ := hw
  rw [hfetch] at hpending ⊢
  have hkbd : s.kbd ++ s.turn.keys = [] := hpending
  have hpc : s.pc + 1#16 - 1#16 = s.pc := BitVec.add_sub_cancel ..
  calc (s.setPc (s.pc + 1#16)).arrive.hold
      _ = { s with pc := s.pc + 1#16 - 1#16, kbd := s.kbd ++ s.turn.keys, turns := s.turns.tail } := rfl
      _ = { s with kbd := [], turns := s.turns.tail } := by rw [hpc, hkbd]

/-- Settles O46: `exec_pc`; the waiting GETC or IN is `exec_of_waits`. -/
theorem pcAfterEachInstruction : Obligations.PcAfterEachInstruction := by
  refine fun i s t h => ⟨fun hw => exec_pc hw h, fun hw => ?_⟩
  cases (exec_of_waits hw).symm.trans h
  rfl

/-- Settles O8: `step_terminal`. -/
theorem terminalStatusHolds : Obligations.TerminalStatusHolds := fun _ => step_terminal

/-- Settles O57: the eight registers, and an empty memory, in which every cell reads zero. -/
theorem resetStateValues : Obligations.ResetStateValues :=
  ⟨fun r => by cases r <;> rfl, rfl, rfl, fun _ => rfl, rfl, rfl, rfl, rfl⟩

end Sys2Proof.Proofs
end
